-- ==== Sys2Proof/Word.lean ====
section
/-!
DEFINITION. The value types of the block: the unsigned 32-bit word (R29, R31), the binary32 pattern (R46) and a colour
of four channels in the order red, green, blue, alpha (R8, R48).
-/

namespace Sys2Proof

/-- `U32`: the integers 0 to 2^32 - 1 (R7); a texel, a texture dimension, a configuration register. -/
abbrev U32 := BitVec 32

/-- `F32`: the 2^32 bit patterns of binary32 (R8, R46). -/
abbrev F32 := BitVec 32

/-- `REQ`: the 64-bit request `{v, u}` (R47). -/
abbrev Req := BitVec 64

/-- `rgba`: four binary32 patterns, red, green, blue, alpha (R8, R48). -/
structure Rgba where
  r : F32
  g : F32
  b : F32
  a : F32
deriving DecidableEq, Repr

end Sys2Proof
end

