-- ==== Sys2Proof/Syntax.lean ====
section
/-!
DEFINITION. The operation set, which stands in the place of an instruction set (R2, R55): one constructor per row of
spec/opcode_table.json.
-/

namespace Sys2Proof

/-- One operation with its operands: the ignored bits `CFG[0][31:2]` of the select word (R57) and the request `(u, v)`
(R47). Log entry 8. -/
inductive Instr
  | pixPacked (reserved : BitVec 30) (u v : F32)   -- PIX.PACKED u, v (R71)
  | pixDensity (reserved : BitVec 30) (u v : F32)  -- PIX.DENSITY u, v (R80)
  | pixBinary (reserved : BitVec 30) (u v : F32)   -- PIX.BINARY u, v (R90)
deriving DecidableEq, Repr

end Sys2Proof
end

