-- ==== Sys2Proof/Machine/State.lean ====
section
/-!
DEFINITION. The machine's state as plain data: the nine configuration registers (R17), the attached texture (R21), the requests
and host moves still to come (R22, R59), the responses delivered (R23), and the model's own draw counter. The block itself
holds nothing between invocations (R13).
-/

namespace Sys2Proof.Machine

/-- The configuration registers `CFG[0]` to `CFG[8]` (R17 to R19). `none`: the register holds no value, never having been
written since reset (R27, R112). Log entry 1. -/
structure CfgRegs where
  mode : Option U32  -- CFG[0]
  caR : Option F32   -- CFG[1]
  caG : Option F32   -- CFG[2]
  caB : Option F32   -- CFG[3]
  caA : Option F32   -- CFG[4]
  cdR : Option F32   -- CFG[5]
  cdG : Option F32   -- CFG[6]
  cdB : Option F32   -- CFG[7]
  cdA : Option F32   -- CFG[8]
deriving DecidableEq, Repr

/-- An address of the texture space: the column and the row (R29). -/
abbrev Addr := Nat × Nat

/-- The contents of a texture: its nonzero texels, in rising order of row and then column (log entry 7). -/
abbrev Memory := List (Addr × U32)

/-- A texture: width, height, contents (R21). -/
structure Texture where
  w : U32
  h : U32
  data : Memory
deriving DecidableEq, Repr

/-- What the host may do between two invocations (R17, R20, R44, R59, R111 to R113). -/
inductive HostMove
  | writeCfg (n : Fin 9) (v : U32)                     -- write CFG[n]
  | attach (w h : U32) (texels : List (Addr × U32))    -- TEX w x h with the texels listed, the others 0 (R59)
  | writeTexel (x y : Nat) (v : U32)                   -- update one texel of the attached texture (R44)
  | reset                                              -- apply reset (R27)
deriving DecidableEq, Repr

/-- One entry of what is still to come: a host move, or a request `REQ` (R22, R47). -/
inductive Input
  | host (m : HostMove)
  | request (req : Req)
deriving DecidableEq, Repr

/-- The machine's state. -/
structure State where
  cfg : CfgRegs
  tex : Option Texture
  inputs : List Input      -- still to come, the next first (log entry 2)
  outputs : List Rgba      -- the responses delivered, the latest last (log entry 3)
  drawCount : Nat          -- the model's own: makes the draws of each invocation fresh (log entry 4)
deriving DecidableEq, Repr

/-- The hardware raises nothing: the list of its exceptions is empty (R94, R96). Log entry 17. -/
inductive Fault
deriving DecidableEq, Repr

/-- The model-level outcome `refuse(reason)` (R99), with its closed list of reasons. -/
inductive Refusal
  /-- Raised by a refused arm of `exec`; no arm is one. Safe: nothing can be proved of the instruction. -/
  | notModelled (mnemonic : String)
  /-- Raised by `fetch` when `CFG[0]`, and by `readInputs` when a colour register, was never written since reset: the outcome
  R27, R98 and R101 give such an invocation by this name (D11, U8). Safe: the spec gives the invocation no result (R99). -/
  | configUnwritten
  /-- Raised by `fetch` when `MODE = 3` (R56, R101). Safe: the spec gives the invocation no result. -/
  | reservedMode
  /-- Raised by `readInputs` when no texture is attached (R102). Safe: the spec gives the invocation no result. -/
  | noTexture
  /-- Raised by `fetchScalar` when the texture has a zero width or height (R30, R102). Safe: the spec gives the invocation
  no result. -/
  | zeroDimension
  /-- Raised by `fetchPacked` when the texture does not hold the texel (R40, R102). Safe: the spec gives the invocation no
  result. -/
  | texelOutOfBounds
deriving DecidableEq, Repr

/-- No register written (R27, R112). -/
def CfgRegs.unwritten : CfgRegs :=
  { mode := none, caR := none, caG := none, caB := none, caA := none, cdR := none, cdG := none, cdB := none, cdA := none }

/-- The machine right after reset (R27, R111 to R113): no register written, no texture attached, nothing issued. -/
def State.reset : State :=
  { cfg := .unwritten, tex := none, inputs := [], outputs := [], drawCount := 0 }

end Sys2Proof.Machine
end

