-- ==== Sys2Proof/Machine/Flags.lean ====
section
/-!
DEFINITION. The block has no flags and no condition codes (R16). What stands in their place is the transient boolean `alive` of one
invocation: computed by BITX (R74) or THRESH (R91), read by SEL (R75) in the same invocation, never stored.
-/

namespace Sys2Proof.Machine

/-- BITX (R74): bit number `bit` of `word`, bit 0 the least significant. -/
def bitX (word : U32) (bit : Nat) : Bool := (word >>> bit) &&& 1 == 1

/-- THRESH (R91): the unsigned comparison `value > 0`. -/
def thresh (value : U32) : Bool := (0 : Nat) < value.toNat

/-- SEL (R75): one of the two colours, bit for bit. -/
def sel (alive : Bool) (ca cd : Rgba) : Rgba := if alive then ca else cd

end Sys2Proof.Machine
end

