-- ==== Sys2Proof/Config.lean ====
section
/-!
DEFINITION. What is fixed for one machine: the constants of R5, the parameter NUM of R6, and the free values of `draw` (R100).
-/

namespace Sys2Proof.Config

/-- GRID_ROWS (R5): logical rows of the packed grid. -/
abbrev gridRows : Nat := 64

/-- GRID_COLS (R5): logical columns of the packed grid. -/
abbrev gridCols : Nat := 64

/-- WORD_BITS (R5): cells held by one packed texel. -/
abbrev wordBits : Nat := 32

/-- WORDS_PER_ROW (R5): texels of one packed row. -/
abbrev wordsPerRow : Nat := 2

/-- PACKED_TEX_W (R5): the width the shape contract asks of a packed texture (R116). -/
abbrev packedTexW : Nat := 128

/-- PACKED_TEX_H (R5): the height the shape contract asks of a packed texture (R116). -/
abbrev packedTexH : Nat := 1

/-- DENSITY_DIV (R5): the divisor of the density normalisation. -/
abbrev densityDiv : Nat := 255

/-- The two readings of the formulas' arithmetic (R6). -/
inductive Reading
  | exact    -- EXACT: exact rationals, one rounding at each output channel
  | f32step  -- F32STEP: every operation rounded to binary32 (R70, R88)
deriving DecidableEq, Repr

/-- NUM (R6), at the value the spec takes, EXACT; `Reading.f32step` is defined in full beside it. Log entry 5. -/
def num : Reading := .exact

/-- The places of one invocation where the spec draws (R103): an index of either axis, or an output channel. -/
inductive DrawSite
  | column
  | row
  | red
  | green
  | blue
  | alpha
deriving DecidableEq, Repr

/-- `draw` (R100): the value drawn at a place of the k-th invocation, under no law. No body, so no proof can know it.
Log entry 4. -/
opaque freeDraw : Nat → DrawSite → BitVec 32

end Sys2Proof.Config
end

