-- ==== Sys2Proof/Machine/Operands.lean ====
section
/-!
DEFINITION. The number formats: binary32 (R46), its values and its one rounding `RN32` (R8), the arithmetic of the reading
F32STEP (R70, R88), and the response format RSP (R48).

Every finite binary32 value is a whole number of units of 2^-149 (R46), so the machine computes with that number. `f32Val`
and `rn32` say the same of the rationals the spec writes. Log entry 6.
-/

namespace Sys2Proof.Machine

/-- The biased exponent `e`, bits 30:23 (R46). -/
def expField (f : F32) : Nat := (f.extractLsb' 23 8).toNat

/-- The fraction `m`, bits 22:0 (R46). -/
def fracField (f : F32) : Nat := (f.extractLsb' 0 23).toNat

/-- The sign `s`, bit 31 (R46). -/
def signBit (f : F32) : Bool := f.getLsbD 31

/-- `finite(f)` (R8, R46). -/
def isFinite (f : F32) : Bool := expField f != 255

/-- `isNaN(f)`: quiet or signalling alike (R46). -/
def isNaN (f : F32) : Bool := expField f == 255 && fracField f != 0

/-- `+Inf` (R46). -/
def posInfPattern : F32 := 0x7F800000

/-- `-Inf` (R46). -/
def negInfPattern : F32 := 0xFF800000

/-- The magnitude of a finite pattern in units of 2^-149 (R46): `m` for a subnormal, `(2^23 + m) * 2^(e - 1)` for a normal
number. -/
def magUnits (f : F32) : Nat :=
  if expField f = 0 then fracField f else (2 ^ 23 + fracField f) * 2 ^ (expField f - 1)

/-- `val(f)` of a finite pattern in units of 2^-149 (R46). -/
def units (f : F32) : Int := if signBit f then -(magUnits f : Int) else (magUnits f : Int)

/-- `val(f)` of a finite pattern, the rational of R46. -/
def f32Val (f : F32) : ℚ := (units f : ℚ) / 2 ^ 149

/-- The number one, in units of 2^-149. -/
def oneUnits : Int := 2 ^ 149

/-- `a / b` rounded to the nearest integer, ties to even. -/
def divNearestEven (a b : Nat) : Nat :=
  if 2 * (a % b) < b then a / b
  else if b < 2 * (a % b) then a / b + 1
  else a / b + a / b % 2

/-- The overflow threshold 2^128 - 2^103 of R8, in units of 2^-149. -/
def overflowUnits : Nat := 2 ^ 252 * (2 ^ 25 - 1)

/-- How many places the last bit of the nearest pattern stands above 2^-149, for a magnitude whose whole units are `i`: none
for a subnormal or for the lowest normal exponent. -/
def ulpShift (i : Nat) : Nat := Nat.log2 i - 23

/-- The nearest pattern, sign bit clear, to the magnitude `a / d` in units of 2^-149 (R8). The significand counted in last
places, added to the exponent's places, is the pattern itself, a carry into the exponent included. -/
def roundMagnitude (a d : Nat) : F32 :=
  if d * overflowUnits ≤ a then posInfPattern
  else BitVec.ofNat 32 (ulpShift (a / d) * 2 ^ 23 + divNearestEven a (d * 2 ^ ulpShift (a / d)))

/-- `RN32` (R8) of `n / d` units of 2^-149: nearest, ties to even, `+0` for zero, the zero of the sign for what is too small. -/
def roundUnits (n : Int) (d : Nat) : F32 :=
  if n = 0 then 0
  else if n < 0 then 0x80000000 ||| roundMagnitude n.natAbs d
  else roundMagnitude n.natAbs d

/-- `RN32(q)` of a rational (R8). -/
def rn32 (q : ℚ) : F32 := roundUnits (q.num * 2 ^ 149) q.den

/-- A value that may be infinite or NaN: a finite one in units of 2^-149. -/
inductive Ext
  | fin (n : Int)
  | posInf
  | negInf
  | nan
deriving DecidableEq, Repr

/-- The value of a pattern (R8, R46). -/
def extOf (f : F32) : Ext :=
  if isFinite f then .fin (units f)
  else if isNaN f then .nan
  else if signBit f then .negInf
  else .posInf

/-- Negation, which rounds nothing. -/
def Ext.neg (a : Ext) : Ext :=
  match a with
  | .fin n => .fin (-n)
  | .posInf => .negInf
  | .negInf => .posInf
  | .nan => .nan

/-- `RN32(a + b)` with the IEEE 754 rules for infinities and NaN (R88, K3). -/
def stepAdd (a b : Ext) : Ext :=
  match a, b with
  | .fin m, .fin n => extOf (roundUnits (m + n) 1)
  | .fin _, e => e
  | e, .fin _ => e
  | .posInf, .posInf => .posInf
  | .negInf, .negInf => .negInf
  | _, _ => .nan

/-- `RN32(a - b)` with the IEEE 754 rules for infinities and NaN (R88, K3). -/
def stepSub (a b : Ext) : Ext := stepAdd a b.neg

/-- An infinity times a finite number: its sign follows the factor's, and `0 * Inf` is NaN (K3). -/
def infTimes (n : Int) : Ext := if n = 0 then .nan else if 0 < n then .posInf else .negInf

/-- `RN32(a * b)` with the IEEE 754 rules for infinities and NaN (R88, K3). -/
def stepMul (a b : Ext) : Ext :=
  match a, b with
  | .fin m, .fin n => extOf (roundUnits (m * n) (2 ^ 149))
  | .nan, _ => .nan
  | _, .nan => .nan
  | .fin n, .posInf => infTimes n
  | .fin n, .negInf => infTimes (-n)
  | .posInf, .fin n => infTimes n
  | .negInf, .fin n => infTimes (-n)
  | .posInf, .posInf => .posInf
  | .negInf, .negInf => .posInf
  | .posInf, .negInf => .negInf
  | .negInf, .posInf => .negInf

/-- A NaN pattern from a drawn word: the word itself where it is a NaN. Every NaN can be drawn. Log entry 13. -/
def nanFrom (drawn : U32) : F32 := if isNaN drawn then drawn else 0x7FC00000

/-- The pattern of a value that binary32 holds; a NaN's is drawn. -/
def Ext.toF32 (a : Ext) (drawn : U32) : F32 :=
  match a with
  | .fin n => roundUnits n 1
  | .posInf => posInfPattern
  | .negInf => negInfPattern
  | .nan => nanFrom drawn

/-- `RN32(n)` of an unsigned integer: the conversions of R70 and R88. -/
def stepOfNat (n : Nat) : Ext := extOf (roundUnits (n * oneUnits) 1)

/-- The response word `RSP = {a, b, g, r}` (R48). -/
def rspWord (c : Rgba) : BitVec 128 := c.a ++ c.b ++ c.g ++ c.r

/-- The colour a response word holds (R48). -/
def rspColour (rsp : BitVec 128) : Rgba :=
  { r := rsp.extractLsb' 0 32, g := rsp.extractLsb' 32 32, b := rsp.extractLsb' 64 32, a := rsp.extractLsb' 96 32 }

end Sys2Proof.Machine
end

