-- ==== Sys2Proof/WellFormed.lean ====
section
/-!
DEFINITION. Which operations are as the host is to write them: the reserved bits of the select word are zero (R57). It is the
only check there is: every pattern of `u` and of `v` is a legal operand (R22), and an operation that fails the check is
executed all the same (R57).
-/

namespace Sys2Proof

/-- The bits `CFG[0][31:2]` the operation was selected with. -/
def Instr.reservedBits (i : Instr) : BitVec 30 :=
  match i with
  | .pixPacked reserved _ _ => reserved
  | .pixDensity reserved _ _ => reserved
  | .pixBinary reserved _ _ => reserved

/-- R57: the host writes the reserved bits as zero. -/
def Instr.wellFormed (i : Instr) : Bool := i.reservedBits == 0

end Sys2Proof
end

