-- ==== Sys2Proof/Decode.lean ====
section
/-!
DEFINITION. The operation select of R49 and R55 and the request format of R47: from the select word `CFG[0]` and the word `REQ`
to an operation, and back.
-/

namespace Sys2Proof

/-- Why a pair of words selects no operation. -/
inductive DecodeError
  | reservedMode  -- `MODE = 3` (R56)
deriving DecidableEq, Repr

/-- The field `MODE = CFG[0][1:0]` (R49). -/
def modeField (cfg0 : U32) : BitVec 2 := cfg0.extractLsb' 0 2

/-- The reserved bits `CFG[0][31:2]` (R49). -/
def reservedField (cfg0 : U32) : BitVec 30 := cfg0.extractLsb' 2 30

/-- `u = REQ[31:0]` (R47). -/
def reqU (req : Req) : F32 := req.extractLsb' 0 32

/-- `v = REQ[63:32]` (R47). -/
def reqV (req : Req) : F32 := req.extractLsb' 32 32

/-- The operation that `CFG[0]` selects for the request `REQ` (R55); the reserved code is rejected (R56). -/
def decode (cfg0 : U32) (req : Req) : Except DecodeError Instr :=
  if modeField cfg0 = 0 then .ok (.pixPacked (reservedField cfg0) (reqU req) (reqV req))
  else if modeField cfg0 = 1 then .ok (.pixDensity (reservedField cfg0) (reqU req) (reqV req))
  else if modeField cfg0 = 2 then .ok (.pixBinary (reservedField cfg0) (reqU req) (reqV req))
  else .error .reservedMode

/-- The select word with the reserved bits and the code given (R49). -/
def selectWord (reserved : BitVec 30) (mode : BitVec 2) : U32 := reserved ++ mode

/-- The request word `{v, u}` (R47). -/
def reqWord (u v : F32) : Req := v ++ u

/-- The select word and the request word of an operation (R47, R49). -/
def encode (i : Instr) : U32 × Req :=
  match i with
  | .pixPacked reserved u v => (selectWord reserved 0, reqWord u v)
  | .pixDensity reserved u v => (selectWord reserved 1, reqWord u v)
  | .pixBinary reserved u v => (selectWord reserved 2, reqWord u v)

/-- The words of one operation as one number: the select word in bits 31:0, the request above it (log entry 8); of `nbits`
bits only those below `nbits` are read. -/
def wordsOf (nbits w : Nat) : U32 × Req :=
  (BitVec.ofNat 32 (w % 2 ^ nbits), BitVec.ofNat 64 (w % 2 ^ nbits / 2 ^ 32))

/-- What the decoder reads from the bits `w` of a row of the operation table. -/
def decodeTableWord (nbits w : Nat) : Option Instr :=
  match decode (wordsOf nbits w).1 (wordsOf nbits w).2 with
  | .ok i => some i
  | .error _ => none

end Sys2Proof
end

