-- ==== Sys2Proof/Machine/Ops.lean ====
section
/-!
DEFINITION. The named operations over the texture, the configuration registers and the state, the host's moves, and the reading of an
invocation's inputs in the order of R104.

The hardware has no exception (R96), no trap entry (R106) and no return (R107), so there is no exception-taking operation here:
what the spec has in its place is `refuse(reason)` (R99), answered by `fetch`, `readInputs` and the two fetches of a texel.
-/

namespace Sys2Proof.Machine

/-! ## The contents of a texture -/

/-- What a texel that is not listed holds (R59: "texels not listed are 0"). -/
def Memory.unlisted : U32 := 0

/-- The order of the listing: by row, then by column. -/
def addrLt (p q : Addr) : Bool := p.2 < q.2 || (p.2 == q.2 && p.1 < q.1)

/-- The texel at an address. -/
def Memory.read (m : Memory) (p : Addr) : U32 :=
  match m with
  | [] => Memory.unlisted
  | (q, v) :: rest => if q = p then v else Memory.read rest p

/-- A texel put in front of a listing, unless it is as an unlisted one. -/
def Memory.push (p : Addr) (v : U32) (m : Memory) : Memory := if v = Memory.unlisted then m else (p, v) :: m

/-- The contents with one texel written; the listing stays canonical. -/
def Memory.write (m : Memory) (p : Addr) (v : U32) : Memory :=
  match m with
  | [] => Memory.push p v []
  | (q, w) :: rest =>
    if q = p then Memory.push p v rest
    else if addrLt p q then Memory.push p v ((q, w) :: rest)
    else (q, w) :: Memory.write rest p v

/-- The canonical form: addresses strictly rising, no entry as an unlisted texel. -/
def Memory.wf (m : Memory) : Bool :=
  match m with
  | [] => true
  | (p, v) :: rest => v != Memory.unlisted && rest.all (fun e => addrLt p e.1) && Memory.wf rest

/-! ## The texture space -/

/-- Whether a texture has the texel `(x, y)` (R29). -/
def Texture.holds (t : Texture) (x y : Nat) : Bool := x < t.w.toNat && y < t.h.toNat

/-- `TexDim()` (R30); none where a dimension is zero. -/
def Texture.texDim (t : Texture) : Option (Nat × Nat) :=
  if t.w = 0 ∨ t.h = 0 then none else some (t.w.toNat, t.h.toNat)

/-- `TexRead(x, y)` (R31); none outside the bounds (R40). -/
def Texture.texRead (t : Texture) (x y : Nat) : Option U32 :=
  if t.holds x y then some (Memory.read t.data (x, y)) else none

/-- The texture with one texel written by the host; there is nothing to write outside the bounds (log entry 11). -/
def Texture.write (t : Texture) (x y : Nat) (v : U32) : Texture :=
  if t.holds x y then { t with data := Memory.write t.data (x, y) v } else t

/-- The texels of a list written one after the other. -/
def Texture.writeAll (t : Texture) (texels : List (Addr × U32)) : Texture :=
  match texels with
  | [] => t
  | (p, v) :: rest => Texture.writeAll (t.write p.1 p.2 v) rest

/-- `TEX w x h` with texels listed, the others 0 (R59). -/
def Texture.build (w h : U32) (texels : List (Addr × U32)) : Texture :=
  Texture.writeAll { w := w, h := h, data := [] } texels

/-- Every listed texel lies in the texture and the listing is canonical. -/
def Texture.wf (t : Texture) : Bool := Memory.wf t.data && t.data.all (fun e => t.holds e.1.1 e.1.2)

/-! ## The configuration registers -/

/-- `CFG[n]`, as a host read returns it (R17, R57): none while it holds no value. -/
def CfgRegs.get (c : CfgRegs) (n : Fin 9) : Option U32 :=
  match n with
  | 0 => c.mode
  | 1 => c.caR
  | 2 => c.caG
  | 3 => c.caB
  | 4 => c.caA
  | 5 => c.cdR
  | 6 => c.cdG
  | 7 => c.cdB
  | 8 => c.cdA

/-- The host writes `CFG[n]` (R17): every bit is kept (R18, R19, R57). -/
def CfgRegs.put (c : CfgRegs) (n : Fin 9) (v : U32) : CfgRegs :=
  match n with
  | 0 => { c with mode := some v }
  | 1 => { c with caR := some v }
  | 2 => { c with caG := some v }
  | 3 => { c with caB := some v }
  | 4 => { c with caA := some v }
  | 5 => { c with cdR := some v }
  | 6 => { c with cdG := some v }
  | 7 => { c with cdB := some v }
  | 8 => { c with cdA := some v }

/-- A colour from its four registers; none while one of them holds no value. -/
def colourOf (r g b a : Option F32) : Option Rgba :=
  match r, g, b, a with
  | some r, some g, some b, some a => some { r := r, g := g, b := b, a := a }
  | _, _, _, _ => none

/-- `cfg.CA = (CFG[1], CFG[2], CFG[3], CFG[4])` (R19). -/
def CfgRegs.ca (c : CfgRegs) : Option Rgba := colourOf c.caR c.caG c.caB c.caA

/-- `cfg.CD = (CFG[5], CFG[6], CFG[7], CFG[8])` (R19). -/
def CfgRegs.cd (c : CfgRegs) : Option Rgba := colourOf c.cdR c.cdG c.cdB c.cdA

/-! ## Updates of the state -/

/-- The next input is taken. -/
def State.withInputs (s : State) (inputs : List Input) : State := { s with inputs := inputs }

/-- The registers are as given. -/
def State.withCfg (s : State) (cfg : CfgRegs) : State := { s with cfg := cfg }

/-- The attached texture is as given. -/
def State.withTex (s : State) (tex : Option Texture) : State := { s with tex := tex }

/-- An invocation's one effect: its response (R10, R23). The draw counter moves on (log entry 4). -/
def State.respond (s : State) (c : Rgba) : State :=
  { s with outputs := s.outputs ++ [c], drawCount := s.drawCount + 1 }

/-! ## The host -/

/-- A move of the host (R17, R21, R27, R44, R59). Reset clears the registers and detaches the texture (R112, R113). -/
def applyHost (m : HostMove) (s : State) : State :=
  match m with
  | .writeCfg n v => s.withCfg (s.cfg.put n v)
  | .attach w h texels => s.withTex (some (Texture.build w h texels))
  | .writeTexel x y v => s.withTex (s.tex.map (fun t => t.write x y v))
  | .reset => (s.withCfg .unwritten).withTex none

/-! ## An invocation's inputs, in the order of R104 -/

/-- The operation a request is made for: `CFG[0]` is read before anything else (R18, R101, R104). -/
def fetch (s : State) (req : Req) : Except Refusal Instr :=
  match s.cfg.mode with
  | none => .error .configUnwritten
  | some cfg0 =>
    match decode cfg0 req with
    | .error .reservedMode => .error .reservedMode
    | .ok i => .ok i

/-- What every operation reads besides its request (R71, R80, R90). -/
structure Inputs where
  ca : Rgba
  cd : Rgba
  tex : Texture
deriving DecidableEq, Repr

/-- Both colours, then the texture (R101, R102, R104). -/
def readInputs (s : State) : Except Refusal Inputs :=
  match s.cfg.ca, s.cfg.cd with
  | some ca, some cd =>
    match s.tex with
    | some t => .ok { ca := ca, cd := cd, tex := t }
    | none => .error .noTexture
  | _, _ => .error .configUnwritten

/-! ## The host's set-up before a first invocation -/

/-- A register as it is, or written with zero where it holds no value. -/
def orZero (r : Option U32) : Option U32 := some (r.getD 0)

/-- Duty 1 (R115) for the colour registers that were never written; those written keep their values. -/
def CfgRegs.setUpColours (c : CfgRegs) : CfgRegs :=
  { c with
    caR := orZero c.caR, caG := orZero c.caG, caB := orZero c.caB, caA := orZero c.caA,
    cdR := orZero c.cdR, cdG := orZero c.cdG, cdB := orZero c.cdB, cdA := orZero c.cdA }

/-- Duty 2 (R116): a texture of the packed shape, which the scalar operations take as well. -/
def setUpTexture : Texture :=
  { w := BitVec.ofNat 32 Config.packedTexW, h := BitVec.ofNat 32 Config.packedTexH, data := [] }

/-- The host writes the select word, does its duties where they are still undone, and issues the request next (log entry 9). -/
def State.issue (s : State) (cfg0 : U32) (req : Req) : State :=
  { s with
    cfg := { s.cfg.setUpColours with mode := some cfg0 },
    tex := some (s.tex.getD setUpTexture),
    inputs := .request req :: s.inputs }

end Sys2Proof.Machine
end

