-- ==== Sys2Proof/Machine/Mapper.lean ====
section
/-!
DEFINITION. The Coordinate Mapper (MAP, R61 to R70), the prelude of all three operations, and the fetch of a texel by the two
scalar operations.
-/

namespace Sys2Proof.Machine

/-- A grid index: the column `x` and the row `y` (R61). -/
structure GridIndex where
  x : Nat
  y : Nat
deriving DecidableEq, Repr

/-- `clamp(i, 0, dim - 1)` (R7, R65). -/
def clampIndex (i : Int) (dim : Nat) : Nat := (max 0 (min ((dim : Int) - 1) i)).toNat

/-- `draw([0, dim - 1])` (R66): some index in bounds. -/
def drawIndex (dim : Nat) (drawn : U32) : Nat := drawn.toNat % dim

/-- Floor, conversion to integer and clamp of a scaled coordinate (R64, R65); an infinity goes to the nearest index and a
NaN draws (R66, R70). -/
def indexOf (e : Ext) (dim : Nat) (drawn : U32) : Nat :=
  match e with
  | .fin n => clampIndex (n / oneUnits) dim
  | .posInf => dim - 1
  | .negInf => 0
  | .nan => drawIndex dim drawn

/-- `a * dim`, exact: the scaling of R63; an infinity stays what it is (R66). -/
def Ext.scale (a : Ext) (dim : Nat) : Ext :=
  match a with
  | .fin n => .fin (n * dim)
  | .posInf => .posInf
  | .negInf => .negInf
  | .nan => .nan

/-- `1 - a`, exact: the vertical flip of R62; an infinity changes its sign (R66). -/
def Ext.flip (a : Ext) : Ext :=
  match a with
  | .fin n => .fin (oneUnits - n)
  | .posInf => .negInf
  | .negInf => .posInf
  | .nan => .nan

/-- `RN32(val(a) * val(RN32(dim)))` of a finite `a` (R70); otherwise as R66. -/
def Ext.scaleStep (a : Ext) (dim : Nat) : Ext :=
  match a with
  | .fin n => stepMul (.fin n) (stepOfNat dim)
  | .posInf => .posInf
  | .negInf => .negInf
  | .nan => .nan

/-- `RN32(1 - val(a))` of a finite `a` (R70); otherwise as R66. -/
def Ext.flipStep (a : Ext) : Ext :=
  match a with
  | .fin n => stepSub (.fin oneUnits) (.fin n)
  | .posInf => .negInf
  | .negInf => .posInf
  | .nan => .nan

/-- `fx` (R63; R70). -/
def scaledU (num : Config.Reading) (u : F32) (w : Nat) : Ext :=
  match num with
  | .exact => (extOf u).scale w
  | .f32step => (extOf u).scaleStep w

/-- `fy` (R62, R63; R70). -/
def scaledV (num : Config.Reading) (v : F32) (h : Nat) : Ext :=
  match num with
  | .exact => (extOf v).flip.scale h
  | .f32step => (extOf v).flipStep.scaleStep h

/-- The column of `u` in a grid `w` wide; `k` numbers the invocation for its draws. -/
def mapX (num : Config.Reading) (u : F32) (w k : Nat) : Nat := indexOf (scaledU num u w) w (Config.freeDraw k .column)

/-- The row of `v` in a grid `h` high; `k` numbers the invocation for its draws. -/
def mapY (num : Config.Reading) (v : F32) (h k : Nat) : Nat := indexOf (scaledV num v h) h (Config.freeDraw k .row)

/-- MAP (R61): the two axes are independent. -/
def mapIndex (num : Config.Reading) (u v : F32) (w h k : Nat) : GridIndex := { x := mapX num u w k, y := mapY num v h k }

/-- The texel of a scalar operation: `TexDim`, MAP on the texture's own dimensions, one `TexRead` (R80, R81, R90). -/
def fetchScalar (num : Config.Reading) (u v : F32) (t : Texture) (k : Nat) : Except Refusal U32 :=
  match t.texDim with
  | none => .error .zeroDimension
  | some (w, h) =>
    match t.texRead (mapIndex num u v w h k).x (mapIndex num u v w h k).y with
    | none => .error .texelOutOfBounds
    | some value => .ok value

end Sys2Proof.Machine
end

