-- ==== Sys2Proof/Machine/Binary.lean ====
section
/-!
DEFINITION. The Binary Decoder: PIX.BINARY (R90). Its sub-operation THRESH (R91) is in Flags.lean.
-/

namespace Sys2Proof.Machine

/-- PIX.BINARY (R90) in either reading of the arithmetic. -/
def pixBinary (num : Config.Reading) (u v : F32) (s : State) : Host.Outcome State Fault Refusal :=
  match readInputs s with
  | .error r => .refused r
  | .ok i =>
    match fetchScalar num u v i.tex s.drawCount with
    | .error r => .refused r
    | .ok value => .next (s.respond (sel (thresh value) i.ca i.cd))

/-- PIX.BINARY (R90). The reserved bits of the select word have no influence (R57). -/
def execPixBinary (_reserved : BitVec 30) (u v : F32) (s : State) : Host.Outcome State Fault Refusal :=
  pixBinary Config.num u v s

end Sys2Proof.Machine
end

