-- ==== Sys2Proof/Machine/Density.lean ====
section
/-!
DEFINITION. The Density Decoder: PIX.DENSITY (R80) and its sub-operations NORM (R83) and LERP (R84), in both readings of the
arithmetic (R88).
-/

namespace Sys2Proof.Machine

/-- A fraction that is not negative. -/
structure Ratio where
  num : Nat
  den : Nat
deriving DecidableEq, Repr

/-- NORM (R83): `value / 255`, exact, of the whole unsigned texel (R82). -/
def normValue (value : U32) : Ratio := { num := value.toNat, den := Config.densityDiv }

/-- One lane of LERP (R84) under EXACT: `RN32(cd + t * (ca - cd))`, the one rounding. -/
def lerpLane (cd ca : F32) (t : Ratio) : F32 :=
  roundUnits (t.den * units cd + t.num * (units ca - units cd)) t.den

/-- NORM under F32STEP (R88): `RN32(val(RN32(value)) / 255)`. -/
def normStep (value : U32) : Ext :=
  match stepOfNat value.toNat with
  | .fin n => extOf (roundUnits n Config.densityDiv)
  | e => e

/-- One lane of LERP under F32STEP (R88). -/
def lerpLaneStep (cd ca : F32) (t : Ext) (drawn : U32) : F32 :=
  (stepAdd (extOf cd) (stepMul t (stepSub (extOf ca) (extOf cd)))).toF32 drawn

/-- One output channel of PIX.DENSITY (R84, R88); a channel whose colour inputs are not both finite is drawn (R89). -/
def densityLane (num : Config.Reading) (cd ca : F32) (value drawn : U32) : F32 :=
  if isFinite cd && isFinite ca then
    match num with
    | .exact => lerpLane cd ca (normValue value)
    | .f32step => lerpLaneStep cd ca (normStep value) drawn
  else drawn

/-- LERP (R84): four independent lanes with the same texel, alpha among them; `k` numbers the invocation for its draws. -/
def lerp (num : Config.Reading) (cd ca : Rgba) (value : U32) (k : Nat) : Rgba :=
  { r := densityLane num cd.r ca.r value (Config.freeDraw k .red)
    g := densityLane num cd.g ca.g value (Config.freeDraw k .green)
    b := densityLane num cd.b ca.b value (Config.freeDraw k .blue)
    a := densityLane num cd.a ca.a value (Config.freeDraw k .alpha) }

/-- PIX.DENSITY (R80) in either reading of the arithmetic. -/
def pixDensity (num : Config.Reading) (u v : F32) (s : State) : Host.Outcome State Fault Refusal :=
  match readInputs s with
  | .error r => .refused r
  | .ok i =>
    match fetchScalar num u v i.tex s.drawCount with
    | .error r => .refused r
    | .ok value => .next (s.respond (lerp num i.cd i.ca value s.drawCount))

/-- PIX.DENSITY (R80). The reserved bits of the select word have no influence (R57). -/
def execPixDensity (_reserved : BitVec 30) (u v : F32) (s : State) : Host.Outcome State Fault Refusal :=
  pixDensity Config.num u v s

end Sys2Proof.Machine
end

