-- ==== Sys2Proof/Machine/Packed.lean ====
section
/-!
DEFINITION. The Bit-Packed Decoder: PIX.PACKED (R71) and its sub-operation PKADDR (R73).
-/

namespace Sys2Proof.Machine

/-- The texel and the bit of a packed cell (R73). -/
structure PackedAddr where
  tx : Nat
  ty : Nat
  bit : Nat
deriving DecidableEq, Repr

/-- PKADDR (R73). -/
def pkAddr (r c : Nat) : PackedAddr :=
  if c < Config.wordBits then { tx := r * Config.wordsPerRow, ty := 0, bit := c }
  else { tx := r * Config.wordsPerRow + 1, ty := 0, bit := c - Config.wordBits }

/-- The packed address of a coordinate: MAP on the logical grid, row and column as R72 has them. -/
def packedAddrOf (num : Config.Reading) (u v : F32) (k : Nat) : PackedAddr :=
  pkAddr (mapIndex num u v Config.gridCols Config.gridRows k).y
    (mapIndex num u v Config.gridCols Config.gridRows k).x

/-- The state of the packed cell under a coordinate: PKADDR, one `TexRead`, BITX (R71). The texture's shape is not looked
at (R79); a texel that does not exist is refused (R40). -/
def fetchPacked (num : Config.Reading) (u v : F32) (t : Texture) (k : Nat) : Except Refusal Bool :=
  match t.texRead (packedAddrOf num u v k).tx (packedAddrOf num u v k).ty with
  | none => .error .texelOutOfBounds
  | some word => .ok (bitX word (packedAddrOf num u v k).bit)

/-- PIX.PACKED (R71) in either reading of the arithmetic. -/
def pixPacked (num : Config.Reading) (u v : F32) (s : State) : Host.Outcome State Fault Refusal :=
  match readInputs s with
  | .error r => .refused r
  | .ok i =>
    match fetchPacked num u v i.tex s.drawCount with
    | .error r => .refused r
    | .ok alive => .next (s.respond (sel alive i.ca i.cd))

/-- PIX.PACKED (R71). The reserved bits of the select word have no influence (R57). -/
def execPixPacked (_reserved : BitVec 30) (u v : F32) (s : State) : Host.Outcome State Fault Refusal :=
  pixPacked Config.num u v s

end Sys2Proof.Machine
end

