-- ==== Sys2Proof/Machine/Dispatch.lean ====
section
/-!
DEFINITION. One arm per operation (R55), each a direct call of its meaning.
-/

namespace Sys2Proof.Machine

def exec (i : Instr) (s : State) : Host.Outcome State Fault Refusal :=
  match i with
  | .pixPacked reserved u v => Sys2Proof.Machine.execPixPacked reserved u v s
  | .pixDensity reserved u v => Sys2Proof.Machine.execPixDensity reserved u v s
  | .pixBinary reserved u v => Sys2Proof.Machine.execPixBinary reserved u v s

end Sys2Proof.Machine
end

