-- ==== Sys2Proof/Machine/Step.lean ====
section
/-!
DEFINITION. One step: the next input is taken, and it is a host move or a request, which is one atomic invocation (R10, R42,
R122).
-/

namespace Sys2Proof.Machine

/-- One step. With nothing to come the block is idle (log entry 14). -/
def step (s : State) : Host.Outcome State Fault Refusal :=
  match s.inputs with
  | [] => .next s
  | .host m :: rest => .next (applyHost m (s.withInputs rest))
  | .request req :: rest =>
    match fetch s req with
    | .error r => .refused r
    | .ok i => exec i (s.withInputs rest)

/-- `s` with the operation of the bits `w` as the next step's: the select word in `CFG[0]`, its request next (log entry 9). -/
def State.withFetchWord (s : State) (nbits w : Nat) : State := s.issue (wordsOf nbits w).1 (wordsOf nbits w).2

end Sys2Proof.Machine
end

