-- ==== Sys2Proof/Safety.lean ====
section
/-!
DEFINITION. What claims about the machine are stated in: the outcomes of a step, the host's contract (R115, R116, R120), the
invariant of the texture's listing, and the spec's formulas written on rationals (R61 to R66, R70, R84).
-/

namespace Sys2Proof.Machine

/-! ## Outcomes -/

/-- The latest response of a next state. -/
def responseOf (o : Host.Outcome State Fault Refusal) : Option Rgba :=
  match o with
  | .next s => s.outputs.getLast?
  | .fault _ => none
  | .refused _ => none

/-- The reason of a refusal (R99). -/
def refusalOf (o : Host.Outcome State Fault Refusal) : Option Refusal :=
  match o with
  | .next _ => none
  | .fault _ => none
  | .refused r => some r

/-- `n` steps, stopping where one stops. -/
def runSteps (n : Nat) (s : State) : Host.Outcome State Fault Refusal :=
  match n with
  | 0 => .next s
  | n + 1 =>
    match step s with
    | .next t => runSteps n t
    | .fault r => .fault r
    | .refused r => .refused r

/-! ## The invariant -/

/-- The attached texture's listing is canonical and lies inside the texture. -/
def State.texWf (s : State) : Bool :=
  match s.tex with
  | none => true
  | some t => t.wf

/-! ## The host's contract -/

/-- Both colours were written (R115) and a texture is attached (R116). -/
structure Ready (s : State) (ca cd : Rgba) (t : Texture) : Prop where
  ca_written : s.cfg.ca = some ca
  cd_written : s.cfg.cd = some cd
  attached : s.tex = some t

/-- The texture has the shape R116 asks for the mode: 128 by 1 for mode 0, any with a texel for modes 1 and 2. -/
def ShapeFor (mode : BitVec 2) (t : Texture) : Prop :=
  (mode = 0 ∧ t.w = 128 ∧ t.h = 1) ∨ ((mode = 1 ∨ mode = 2) ∧ t.w ≠ 0 ∧ t.h ≠ 0)

/-- Neither coordinate of a request is a NaN (R120). -/
def Drawless (req : Req) : Prop := isNaN (reqU req) = false ∧ isNaN (reqV req) = false

/-- Every channel of a colour is finite (R120). -/
def FiniteColour (c : Rgba) : Prop :=
  isFinite c.r = true ∧ isFinite c.g = true ∧ isFinite c.b = true ∧ isFinite c.a = true

/-! ## The spec's formulas -/

/-- `x` is a column MAP may give for `u` in a grid `w` wide: R61 for a finite `u`, R66 for the others. -/
def ColumnOf (u : F32) (w x : Nat) : Prop :=
  (isFinite u = true → (x : ℤ) = max 0 (min ((w : ℤ) - 1) ⌊f32Val u * w⌋)) ∧
  (u = posInfPattern → x = w - 1) ∧
  (u = negInfPattern → x = 0) ∧
  (isNaN u = true → x < w)

/-- `y` is a row MAP may give for `v` in a grid `h` high: R61 for a finite `v`, R66 for the others. -/
def RowOf (v : F32) (h y : Nat) : Prop :=
  (isFinite v = true → (y : ℤ) = max 0 (min ((h : ℤ) - 1) ⌊(1 - f32Val v) * h⌋)) ∧
  (v = posInfPattern → y = 0) ∧
  (v = negInfPattern → y = h - 1) ∧
  (isNaN v = true → y < h)

/-- `x` is a column MAP may give for `u` under F32STEP in a grid `w` wide: R70's rounded product for a finite `u`, an infinite
product clamped like an infinity, and R66 for the others. -/
def ColumnStepOf (u : F32) (w x : Nat) : Prop :=
  (isFinite u = true → ∀ fx : F32, fx = rn32 (f32Val u * f32Val (rn32 w)) →
    (isFinite fx = true → (x : ℤ) = max 0 (min ((w : ℤ) - 1) ⌊f32Val fx⌋)) ∧
    (fx = posInfPattern → x = w - 1) ∧
    (fx = negInfPattern → x = 0)) ∧
  (u = posInfPattern → x = w - 1) ∧
  (u = negInfPattern → x = 0) ∧
  (isNaN u = true → x < w)

/-- `y` is a row MAP may give for `v` under F32STEP in a grid `h` high: R70's rounded flip and product for a finite `v`, an
infinite product clamped like an infinity, and R66 for the others. -/
def RowStepOf (v : F32) (h y : Nat) : Prop :=
  (isFinite v = true → ∀ fy : F32, fy = rn32 (f32Val (rn32 (1 - f32Val v)) * f32Val (rn32 h)) →
    (isFinite fy = true → (y : ℤ) = max 0 (min ((h : ℤ) - 1) ⌊f32Val fy⌋)) ∧
    (fy = posInfPattern → y = h - 1) ∧
    (fy = negInfPattern → y = 0)) ∧
  (v = posInfPattern → y = 0) ∧
  (v = negInfPattern → y = h - 1) ∧
  (isNaN v = true → y < h)

/-- `out` is what one lane of LERP may give (R84): the formula rounded once where both inputs are finite, anything where one
is not (R89). -/
def LaneOf (cd ca : F32) (value : U32) (out : F32) : Prop :=
  isFinite cd = true → isFinite ca = true →
    out = rn32 (f32Val cd + (value.toNat : ℚ) / 255 * (f32Val ca - f32Val cd))

/-- The four lanes of LERP (R84). -/
def LerpOf (cd ca : Rgba) (value : U32) (out : Rgba) : Prop :=
  LaneOf cd.r ca.r value out.r ∧ LaneOf cd.g ca.g value out.g ∧
  LaneOf cd.b ca.b value out.b ∧ LaneOf cd.a ca.a value out.a

/-- A pattern with `-0` replaced by `+0`: the one difference R85 allows. -/
def plusZero (f : F32) : F32 := if f = 0x80000000 then 0 else f

/-- A colour with every `-0` channel replaced by `+0` (R85). -/
def plusZeroes (c : Rgba) : Rgba :=
  { r := plusZero c.r, g := plusZero c.g, b := plusZero c.b, a := plusZero c.a }

/-- A pattern's place in the order of values, the infinities at the ends; both zeros have place 0. -/
def orderKey (f : F32) : Int :=
  if signBit f then -((f.extractLsb' 0 31).toNat : Int) else ((f.extractLsb' 0 31).toNat : Int)

end Sys2Proof.Machine
end

