-- ==== Sys2Proof/Certificates/Slice0/Obligations.lean ====
section
/-!
DEFINITION. The statements for the provers: the spec's numbered rules as claims about the model.
-/

open Sys2Proof Sys2Proof.Machine

/-! ## The operation select and the formats (30_encoding.md) -/

/-- R47, R49, R55: a pair of words decodes to an operation exactly if it is that operation's encoding, so no bit is dropped
and no two operations share words. -/
def Obligations.DecodeIsInverseOfEncode : Prop :=
  ∀ (cfg0 : U32) (req : Req) (i : Instr), decode cfg0 req = .ok i ↔ encode i = (cfg0, req)

/-- R47, R49: the code in bits 1:0 of the select word names the operation, its other bits are the reserved field, and the request's
low half is `u` and its high half `v`. -/
def Obligations.ModeFieldSelectsTheOperation : Prop :=
  ∀ (cfg0 : U32) (req : Req) (reserved : BitVec 30) (u v : F32),
    cfg0.toNat / 4 = reserved.toNat → req.toNat = u.toNat + 2 ^ 32 * v.toNat →
      (cfg0.toNat % 4 = 0 → decode cfg0 req = .ok (.pixPacked reserved u v)) ∧
      (cfg0.toNat % 4 = 1 → decode cfg0 req = .ok (.pixDensity reserved u v)) ∧
      (cfg0.toNat % 4 = 2 → decode cfg0 req = .ok (.pixBinary reserved u v)) ∧
      (cfg0.toNat % 4 = 3 → decode cfg0 req = .error .reservedMode)

/-- R56: the code 3, and no other, selects no operation: the request is refused as reserved, whatever the texture and the
colours are. -/
def Obligations.ReservedCodeIsRefused : Prop :=
  ∀ (s : State) (req : Req) (rest : List Input) (cfg0 : U32),
    s.inputs = .request req :: rest → s.cfg.mode = some cfg0 →
      (step s = .refused .reservedMode ↔ cfg0.toNat % 4 = 3)

/-- Sanity: the select words of 95_test_vectors.md section 2.7 (V-MODE-1 to V-MODE-6) with the request word of P1's line 5. -/
def Obligations.SelectWordsDecodeAsTabled : Prop :=
  decode 0x00000000 0x3F6A00003F220000 = .ok (.pixPacked 0 0x3F220000 0x3F6A0000) ∧
  decode 0x00000001 0x3F6A00003F220000 = .ok (.pixDensity 0 0x3F220000 0x3F6A0000) ∧
  decode 0x00000002 0x3F6A00003F220000 = .ok (.pixBinary 0 0x3F220000 0x3F6A0000) ∧
  decode 0x00000003 0x3F6A00003F220000 = .error .reservedMode ∧
  decode 0xFFFFFFFE 0x3F6A00003F220000 = .ok (.pixBinary 0x3FFFFFFF 0x3F220000 0x3F6A0000) ∧
  decode 0x00000007 0x3F6A00003F220000 = .error .reservedMode

/-- R57: two select words that differ in the reserved bits only make the same step, up to the register itself, which is kept
as written. -/
def Obligations.ReservedBitsAreIgnoredAndKept : Prop :=
  ∀ (s : State) (req : Req) (rest : List Input) (w w' : U32),
    s.inputs = .request req :: rest → w.toNat % 4 = w'.toNat % 4 →
      (∀ t, step (s.withCfg (s.cfg.put 0 w)) = .next t →
        step (s.withCfg (s.cfg.put 0 w')) = .next (t.withCfg (s.cfg.put 0 w'))) ∧
      (∀ r, step (s.withCfg (s.cfg.put 0 w)) = .refused r → step (s.withCfg (s.cfg.put 0 w')) = .refused r) ∧
      (s.cfg.put 0 w).get 0 = some w

/-- R48: the response word holds red, green, blue and alpha from its low end up, and no bit is dropped either way. -/
def Obligations.ResponseWordHoldsFourChannels : Prop :=
  (∀ c : Rgba, (rspWord c).toNat =
    c.r.toNat + 2 ^ 32 * c.g.toNat + 2 ^ 64 * c.b.toNat + 2 ^ 96 * c.a.toNat) ∧
  (∀ c : Rgba, rspColour (rspWord c) = c) ∧
  (∀ w : BitVec 128, rspWord (rspColour w) = w)

/-! ## Steps -/

/-- A request's step is the decoded operation run on the state with the request taken. The same holds from the state
`withFetchWord` makes, which is the model's own set-up (log entry 9) of the model's own layout of the words (log entry 8). With
nothing to come the step changes nothing (the model's choice: log entry 14). -/
def Obligations.StepRunsTheDecodedOperation : Prop :=
  (∀ (s : State) (req : Req) (rest : List Input) (cfg0 : U32) (i : Instr),
    s.inputs = .request req :: rest → s.cfg.mode = some cfg0 → decode cfg0 req = .ok i →
      step s = exec i { s with inputs := rest }) ∧
  (∀ (s : State) (nbits w : Nat) (i : Instr), decodeTableWord nbits w = some i →
    step (s.withFetchWord nbits w) =
      exec i { s.withFetchWord nbits w with inputs := s.inputs }) ∧
  (∀ s : State, s.inputs = [] → step s = .next s)

/-- R13, R20, R36: the frame of all three operations. One response is appended and the model's draw counter moves on by one;
every configuration register, every texel, the dimensions and what is still to come stay. The list of responses and the draw
counter are the model's (log entries 3 and 4). -/
def Obligations.OperationsOnlyRespond : Prop :=
  ∀ (i : Instr) (s t : State), exec i s = .next t →
    (∃ c, t.outputs = s.outputs ++ [c]) ∧ t.drawCount = s.drawCount + 1 ∧
    t.cfg = s.cfg ∧ t.tex = s.tex ∧ t.inputs = s.inputs

/-- R13, R17, R36: no step but a host move changes a register or the texture. -/
def Obligations.OnlyHostMovesChangeConfigOrTexture : Prop :=
  ∀ s t : State, step s = .next t → t.cfg ≠ s.cfg ∨ t.tex ≠ s.tex →
    ∃ m rest, s.inputs = .host m :: rest ∧ t.outputs = s.outputs

/-! ## Reset and the host's moves -/

/-- R27, R112, R113: after reset no register holds a value and no texture is attached, in the initial state and after a reset
from any state; a request made then is refused. That a reset keeps the responses is the model's choice (log entry 16). -/
def Obligations.ResetLeavesNothingConfigured : Prop :=
  (∀ n, State.reset.cfg.get n = none) ∧ State.reset.tex = none ∧
  ∀ (s : State) (req : Req) (rest : List Input), s.inputs = .host .reset :: .request req :: rest →
    ∃ t, step s = .next t ∧ (∀ n, t.cfg.get n = none) ∧ t.tex = none ∧ t.outputs = s.outputs ∧
      step t = .refused .configUnwritten

/-- R17, R19: a host write of `CFG[n]` is read back unchanged, and every other register, the texture and the responses
stay. -/
def Obligations.HostWriteIsReadBack : Prop :=
  ∀ (s : State) (n : Fin 9) (v : U32) (rest : List Input), s.inputs = .host (.writeCfg n v) :: rest →
    ∃ t, step s = .next t ∧ t.cfg.get n = some v ∧ (∀ m, m ≠ n → t.cfg.get m = s.cfg.get m) ∧
      t.tex = s.tex ∧ t.outputs = s.outputs ∧ t.inputs = rest

/-- R19: the colours are the registers 1 to 4 and 5 to 8 in the order red, green, blue, alpha. -/
def Obligations.ColoursAreTheirRegisters : Prop :=
  ∀ (c : CfgRegs) (p : Rgba),
    (c.ca = some p ↔ c.get 1 = some p.r ∧ c.get 2 = some p.g ∧ c.get 3 = some p.b ∧ c.get 4 = some p.a) ∧
    (c.cd = some p ↔ c.get 5 = some p.r ∧ c.get 6 = some p.g ∧ c.get 7 = some p.b ∧ c.get 8 = some p.a)

/-- R59 with R44: after the host attaches a texture with texels listed, every texel in bounds reads as its last listing, or 0
where it is not listed, and none outside the bounds can be read; registers and responses stay. That a later listing wins and
one outside the bounds is dropped is the model's choice (log entry 11). -/
def Obligations.AttachedTextureReadsAsListed : Prop :=
  ∀ (s : State) (w h : U32) (texels : List (Addr × U32)) (rest : List Input),
    s.inputs = .host (.attach w h texels) :: rest →
      ∃ t, step s = .next { s with inputs := rest, tex := some t } ∧ t.w = w ∧ t.h = h ∧
        ∀ x y, t.texRead x y =
          if x < w.toNat ∧ y < h.toNat then
            some (((texels.reverse.find? (fun e => e.1 == (x, y))).map (fun e => e.2)).getD 0)
          else none

/-- R44: a host update of one texel of the attached texture is what that texel then reads as, and no other texel, dimension,
register or response changes. An update outside the bounds changes nothing (log entry 11). -/
def Obligations.UpdatedTexelReadsBack : Prop :=
  ∀ (s : State) (x y : Nat) (v : U32) (rest : List Input) (t : Texture),
    s.inputs = .host (.writeTexel x y v) :: rest → s.tex = some t → t.wf = true →
      ∃ t', step s = .next { s with inputs := rest, tex := some t' } ∧ t'.w = t.w ∧ t'.h = t.h ∧
        ∀ x' y', t'.texRead x' y' =
          if (x', y') = (x, y) ∧ t.holds x y = true then some v else t.texRead x' y'

/-! ## The texture's listing -/

/-- Every step keeps the listing of the attached texture canonical and inside the texture. -/
def Obligations.StepKeepsTextureCanonical : Prop :=
  ∀ s t : State, s.texWf = true → step s = .next t → t.texWf = true

/-- Reset meets the invariant, and so does the state the host's `withFetchWord` makes of a state that meets it. -/
def Obligations.ResetTextureCanonical : Prop :=
  State.reset.texWf = true ∧ ∀ (s : State) (nbits w : Nat), s.texWf = true → (s.withFetchWord nbits w).texWf = true

/-- Equal contents are equal data: two canonical listings that read the same everywhere are the same listing. -/
def Obligations.CanonicalListingIsUnique : Prop :=
  ∀ m m' : Memory, m.wf = true → m'.wf = true → (∀ p, m.read p = m'.read p) → m = m'

/-! ## Numbers (00_scope.md R8, 30_encoding.md R46) -/

/-- R46: the value of a finite pattern, subnormal and normal. -/
def Obligations.FiniteValuesAreAsTabled : Prop :=
  ∀ f : F32,
    (expField f = 0 → f32Val f = (if signBit f then -1 else 1) * (fracField f : ℚ) / 2 ^ 149) ∧
    (1 ≤ expField f → expField f ≤ 254 →
      f32Val f = (if signBit f then -1 else 1) * (2 ^ 23 + (fracField f : ℚ)) * (2 : ℚ) ^ ((expField f : ℤ) - 150))

/-- R8: below the overflow threshold `RN32` gives a finite pattern, none is nearer, and of two equally near values it is the
one with even significand; at the threshold and above it gives the infinity; zero gives `+0` and what is too small gives the
zero of its sign. -/
def Obligations.RoundingIsToNearestTiesToEven : Prop :=
  ∀ q : ℚ,
    (|q| < 2 ^ 128 - 2 ^ 103 → isFinite (rn32 q) = true ∧
      ∀ f : F32, isFinite f = true →
        |f32Val (rn32 q) - q| ≤ |f32Val f - q| ∧
        (|f32Val (rn32 q) - q| = |f32Val f - q| → f32Val f ≠ f32Val (rn32 q) → (rn32 q).toNat % 2 = 0)) ∧
    (2 ^ 128 - 2 ^ 103 ≤ q → rn32 q = posInfPattern) ∧
    (q ≤ -(2 ^ 128 - 2 ^ 103) → rn32 q = negInfPattern) ∧
    (q = 0 → rn32 q = 0x00000000) ∧
    (0 < q → q ≤ 1 / 2 ^ 150 → rn32 q = 0x00000000) ∧
    (q < 0 → -(1 / 2 ^ 150) ≤ q → rn32 q = 0x80000000)

/-- `RN32` of a binary32 value is its own pattern, but for `-0`, which gives `+0` (used by R85). -/
def Obligations.RoundingKeepsBinary32Values : Prop :=
  ∀ f : F32, isFinite f = true → rn32 (f32Val f) = plusZero f

/-! ## The Coordinate Mapper (40_coordinate_mapper.md) -/

/-- R61, R66: MAP gives the spec's column and row, for every pattern of `u` and `v` and every dimension. -/
def Obligations.MapperFollowsTheFormula : Prop :=
  ∀ (u v : F32) (w h k : Nat), 1 ≤ w → w < 2 ^ 32 → 1 ≤ h → h < 2 ^ 32 →
    ColumnOf u w (mapIndex .exact u v w h k).x ∧ RowOf v h (mapIndex .exact u v w h k).y

/-- R67: MAP never leaves the grid, for every pattern of `u` and `v`, in either reading of the arithmetic. -/
def Obligations.MapperStaysInTheGrid : Prop :=
  ∀ (num : Config.Reading) (u v : F32) (w h k : Nat), 1 ≤ w → 1 ≤ h →
    (mapIndex num u v w h k).x ≤ w - 1 ∧ (mapIndex num u v w h k).y ≤ h - 1

/-- R65: the clamp of finite out-of-range coordinates. Under F32STEP for dimensions that binary32 holds exactly, at most 2^24:
above them R70's own formula rounds the dimension and can miss the last index (log entry 13). -/
def Obligations.OutOfRangeCoordinatesClamp : Prop :=
  ∀ (num : Config.Reading) (u v : F32) (w h k : Nat), 1 ≤ w → w < 2 ^ 32 → 1 ≤ h → h < 2 ^ 32 →
    (num = .f32step → w ≤ 2 ^ 24 ∧ h ≤ 2 ^ 24) → isFinite u = true → isFinite v = true →
      (f32Val u < 0 → (mapIndex num u v w h k).x = 0) ∧
      (1 ≤ f32Val u → (mapIndex num u v w h k).x = w - 1) ∧
      (1 < f32Val v → (mapIndex num u v w h k).y = 0) ∧
      (f32Val v ≤ 0 → (mapIndex num u v w h k).y = h - 1)

/-- R68: the interval of each column and of each row. -/
def Obligations.CellsAreIntervals : Prop :=
  ∀ (u v : F32) (w h k : Nat), w < 2 ^ 32 → h < 2 ^ 32 → isFinite u = true → isFinite v = true →
    (2 ≤ w →
      (∀ c : Nat, 1 ≤ c → c + 2 ≤ w →
        ((mapIndex .exact u v w h k).x = c ↔ (c : ℚ) / w ≤ f32Val u ∧ f32Val u < ((c : ℚ) + 1) / w)) ∧
      ((mapIndex .exact u v w h k).x = 0 ↔ f32Val u < 1 / (w : ℚ)) ∧
      ((mapIndex .exact u v w h k).x = w - 1 ↔ ((w : ℚ) - 1) / w ≤ f32Val u)) ∧
    (2 ≤ h →
      (∀ c : Nat, 1 ≤ c → c + 2 ≤ h →
        ((mapIndex .exact u v w h k).y = c ↔ 1 - ((c : ℚ) + 1) / h < f32Val v ∧ f32Val v ≤ 1 - (c : ℚ) / h)) ∧
      ((mapIndex .exact u v w h k).y = 0 ↔ 1 - 1 / (h : ℚ) < f32Val v) ∧
      ((mapIndex .exact u v w h k).y = h - 1 ↔ f32Val v ≤ 1 / (h : ℚ))) ∧
    (w = 1 → (mapIndex .exact u v w h k).x = 0) ∧
    (h = 1 → (mapIndex .exact u v w h k).y = 0)

/-- R68's last sentences: the column does not decrease with `u`, and the row does not increase with `v`. -/
def Obligations.MapperIsMonotone : Prop :=
  ∀ (u u' v v' : F32) (w h k : Nat), 1 ≤ w → w < 2 ^ 32 → 1 ≤ h → h < 2 ^ 32 →
    isFinite u = true → isFinite u' = true → isFinite v = true → isFinite v' = true →
      (f32Val u ≤ f32Val u' → (mapIndex .exact u v w h k).x ≤ (mapIndex .exact u' v w h k).x) ∧
      (f32Val v ≤ f32Val v' → (mapIndex .exact u v' w h k).y ≤ (mapIndex .exact u v w h k).y)

/-- R69: the bottom of the surface is the last row and its top row 0; left is column 0 and right the last one. -/
def Obligations.VerticalAxisIsFlipped : Prop :=
  ∀ (u v : F32) (w h k : Nat), 1 ≤ w → w < 2 ^ 32 → 1 ≤ h → h < 2 ^ 32 →
    isFinite u = true → isFinite v = true →
      (f32Val v = 0 → (mapIndex .exact u v w h k).y = h - 1) ∧
      (f32Val v = 1 → (mapIndex .exact u v w h k).y = 0) ∧
      (f32Val u = 0 → (mapIndex .exact u v w h k).x = 0) ∧
      (f32Val u = 1 → (mapIndex .exact u v w h k).x = w - 1)

/-- R70, R66: MAP under F32STEP, for every pattern of `u` and `v` and every dimension. For finite coordinates the dimension, the
flip and the product are each rounded, and an infinite product clamps like an infinity; an infinite coordinate clamps and a NaN
gives some index in bounds, as in R66. -/
def Obligations.StepwiseMapperFollowsItsFormula : Prop :=
  ∀ (u v : F32) (w h k : Nat), 1 ≤ w → w < 2 ^ 32 → 1 ≤ h → h < 2 ^ 32 →
    ColumnStepOf u w (mapIndex .f32step u v w h k).x ∧ RowStepOf v h (mapIndex .f32step u v w h k).y

/-- R70: the two readings agree on the multiples of 2^-17 in [0, 1] for grids of at most 64 by 64. -/
def Obligations.ReadingsAgreeOnCoarseCoordinates : Prop :=
  ∀ (u v : F32) (a b w h k : Nat), isFinite u = true → isFinite v = true →
    f32Val u = (a : ℚ) / 2 ^ 17 → a ≤ 2 ^ 17 → f32Val v = (b : ℚ) / 2 ^ 17 → b ≤ 2 ^ 17 →
    1 ≤ w → w ≤ 64 → 1 ≤ h → h ≤ 64 →
      mapIndex .f32step u v w h k = mapIndex .exact u v w h k

/-! ## PIX.PACKED (41_bit_packed_decoder.md) -/

/-- R50, R54, R73, R76, R77: for every cell of the grid PKADDR gives a texel of a 128 by 1 texture, and BITX reads there the
cell's bit of the packed row `{hi, lo}`. -/
def Obligations.PackedCellIsItsRowBit : Prop :=
  ∀ (t : Texture) (r c : Nat), r ≤ 63 → c ≤ 63 →
    (pkAddr r c).tx ≤ 127 ∧ (pkAddr r c).ty = 0 ∧ (pkAddr r c).bit ≤ 31 ∧
    (pkAddr r c).tx = 2 * r + c / 32 ∧ (pkAddr r c).bit = c % 32 ∧
    bitX (t.data.read ((pkAddr r c).tx, (pkAddr r c).ty)) (pkAddr r c).bit =
      ((t.data.read (2 * r + 1, 0)) ++ (t.data.read (2 * r, 0))).getLsbD c

/-- R71, R40: with both colours written and a texture attached, PIX.PACKED maps the coordinate to a cell of the 64 by 64 grid.
If the texture has the cell's texel it answers the alive or the dead colour by that cell's one bit and changes nothing else;
if not it is refused. Every coordinate pattern and every texture shape is covered. The list of responses and the counter
`drawCount` are the model's (log entries 3 and 4). -/
def Obligations.PackedAnswersTheCellsColour : Prop :=
  ∀ (s : State) (reserved : BitVec 30) (u v : F32) (ca cd : Rgba) (t : Texture), Ready s ca cd t →
    ∃ x y, ColumnOf u 64 x ∧ RowOf v 64 y ∧ x ≤ 63 ∧ y ≤ 63 ∧
      exec (.pixPacked reserved u v) s =
        if 2 * y + x / 32 < t.w.toNat ∧ 0 < t.h.toNat then
          .next { s with
            outputs := s.outputs ++ [if (t.data.read (2 * y + x / 32, 0)).getLsbD (x % 32) then ca else cd],
            drawCount := s.drawCount + 1 }
        else .refused .texelOutOfBounds

/-- R71, R77, R116: on a texture with at least the packed shape, PIX.PACKED completes for every coordinate, with the alive or
the dead colour, bit for bit. The list of responses and the counter `drawCount` are the model's (log entries 3 and 4). -/
def Obligations.PackedCompletesOnThePackedShape : Prop :=
  ∀ (s : State) (reserved : BitVec 30) (u v : F32) (ca cd : Rgba) (t : Texture), Ready s ca cd t →
    128 ≤ t.w.toNat → 1 ≤ t.h.toNat →
      ∃ c, (c = ca ∨ c = cd) ∧
        exec (.pixPacked reserved u v) s =
          .next { s with outputs := s.outputs ++ [c], drawCount := s.drawCount + 1 }

/-- R38, R79: only the first 128 texels of row 0 matter to PIX.PACKED, whatever else the texture holds and however large it
is. The list of responses and the counter `drawCount` are the model's (log entries 3 and 4). -/
def Obligations.PackedReadsOnlyTheFirst128Texels : Prop :=
  ∀ (s : State) (reserved : BitVec 30) (u v : F32) (ca cd : Rgba) (t t' : Texture), Ready s ca cd t →
    128 ≤ t.w.toNat → 1 ≤ t.h.toNat → 128 ≤ t'.w.toNat → 1 ≤ t'.h.toNat →
    (∀ x, x ≤ 127 → t.data.read (x, 0) = t'.data.read (x, 0)) →
      ∃ c,
        exec (.pixPacked reserved u v) s =
          .next { s with outputs := s.outputs ++ [c], drawCount := s.drawCount + 1 } ∧
        exec (.pixPacked reserved u v) { s with tex := some t' } =
          .next { s with tex := some t', outputs := s.outputs ++ [c], drawCount := s.drawCount + 1 }

/-! ## PIX.DENSITY (42_density_decoder.md) -/

/-- R80, R82, R84, R89: with both colours written and a texture with a texel attached, PIX.DENSITY completes for every
coordinate: it reads the one texel MAP gives, whole, and answers the formula of R84 rounded once in every lane whose colour
inputs are finite, anything in the others, and changes nothing else. The list of responses and the counter `drawCount` are the
model's (log entries 3 and 4). -/
def Obligations.DensityAnswersTheInterpolatedColour : Prop :=
  ∀ (s : State) (reserved : BitVec 30) (u v : F32) (ca cd : Rgba) (t : Texture), Ready s ca cd t →
    t.w ≠ 0 → t.h ≠ 0 →
      ∃ x y out, ColumnOf u t.w.toNat x ∧ RowOf v t.h.toNat y ∧ x < t.w.toNat ∧ y < t.h.toNat ∧
        LerpOf cd ca (t.data.read (x, y)) out ∧
        exec (.pixDensity reserved u v) s =
          .next { s with outputs := s.outputs ++ [out], drawCount := s.drawCount + 1 }

/-- R85: density 0 is exactly the dead colour and density 255 exactly the alive one, channel by channel, but that a `-0` comes
out as `+0`. -/
def Obligations.DensityEndpointsAreExact : Prop :=
  ∀ (cd ca : Rgba) (k : Nat), FiniteColour cd → FiniteColour ca →
    lerp .exact cd ca 0 k = plusZeroes cd ∧ lerp .exact cd ca 255 k = plusZeroes ca

/-- R80: where the two colours are equal the output is that colour for every texel, but that a `-0` comes out as `+0`. -/
def Obligations.EqualColoursGiveThatColour : Prop :=
  ∀ (c : Rgba) (value : U32) (k : Nat), FiniteColour c → lerp .exact c c value k = plusZeroes c

/-- R86: the channel value is the affine function of the whole texel, past 255 too, delivered through one rounding; so a channel
grows with the texel where the alive channel is above the dead one, falls where it is below, and never turns back. -/
def Obligations.DensityIsMonotoneAndUnclamped : Prop :=
  ∀ (cd ca drawn : F32) (value value' : U32), isFinite cd = true → isFinite ca = true →
    densityLane .exact cd ca value drawn =
      rn32 (f32Val cd + (value.toNat : ℚ) * (f32Val ca - f32Val cd) / 255) ∧
    (value.toNat ≤ value'.toNat → f32Val cd < f32Val ca →
      orderKey (densityLane .exact cd ca value drawn) ≤ orderKey (densityLane .exact cd ca value' drawn)) ∧
    (value.toNat ≤ value'.toNat → f32Val ca < f32Val cd →
      orderKey (densityLane .exact cd ca value' drawn) ≤ orderKey (densityLane .exact cd ca value drawn))

/-- R87: density 128 gives the midpoint plus a 510th part of the channels' distance, rounded once. -/
def Obligations.DensityMidpointIsOff510th : Prop :=
  ∀ cd ca drawn : F32, isFinite cd = true → isFinite ca = true →
    densityLane .exact cd ca 128 drawn =
      rn32 ((f32Val cd + f32Val ca) / 2 + (f32Val ca - f32Val cd) / 510)

/-- R88: one lane of NORM and LERP under F32STEP, for finite colours: every operation of the formula rounded on its own, an
infinite difference or product kept. That zero times an infinite difference is a NaN is the model's choice (log entry 13,
PRESUMED from IEEE 754): it follows R88's formula against R88's sentence that R85 holds for value 0. -/
def Obligations.StepwiseLaneFollowsItsFormula : Prop :=
  ∀ (cd ca value drawn t d p : F32), isFinite cd = true → isFinite ca = true →
    t = rn32 (f32Val (rn32 value.toNat) / 255) → d = rn32 (f32Val ca - f32Val cd) → p = rn32 (f32Val t * f32Val d) →
      (isFinite d = true → isFinite p = true →
        densityLane .f32step cd ca value drawn = rn32 (f32Val cd + f32Val p)) ∧
      (isFinite d = true → isFinite p = false → densityLane .f32step cd ca value drawn = p) ∧
      (isFinite d = false → value ≠ 0 → densityLane .f32step cd ca value drawn = d) ∧
      (isFinite d = false → value = 0 → isNaN (densityLane .f32step cd ca value drawn) = true)

/-- R88: under F32STEP density 0 still gives the dead channel wherever the channels' difference does not overflow (where it does,
the model's choice is a NaN: log entry 13), and density 255 does not give the alive one for the colours the rule names. -/
def Obligations.StepwiseEndpointFailsAt255 : Prop :=
  (∀ cd ca drawn : F32, isFinite cd = true → isFinite ca = true →
    |f32Val ca - f32Val cd| < 2 ^ 128 - 2 ^ 103 → densityLane .f32step cd ca 0 drawn = plusZero cd) ∧
  (∀ drawn : F32, densityLane .f32step 0x3F483127 0x3D83126F 255 drawn = 0x3D831270)

/-! ## PIX.BINARY (43_binary_decoder.md) -/

/-- R90, R91: with both colours written and a texture with a texel attached, PIX.BINARY completes for every coordinate: it
reads the one texel MAP gives and answers, bit for bit, the alive colour if any bit of it is set and the dead one if none is,
and changes nothing else. The list of responses and the counter `drawCount` are the model's (log entries 3 and 4). -/
def Obligations.BinaryAnswersByNonzero : Prop :=
  ∀ (s : State) (reserved : BitVec 30) (u v : F32) (ca cd : Rgba) (t : Texture), Ready s ca cd t →
    t.w ≠ 0 → t.h ≠ 0 →
      ∃ x y, ColumnOf u t.w.toNat x ∧ RowOf v t.h.toNat y ∧ x < t.w.toNat ∧ y < t.h.toNat ∧
        exec (.pixBinary reserved u v) s =
          .next { s with
            outputs := s.outputs ++ [if t.data.read (x, y) = 0 then cd else ca],
            drawCount := s.drawCount + 1 }

/-- R92: the magnitude of a nonzero texel has no influence on PIX.BINARY: two textures of one shape with the same zero texels
give the same answer. The list of responses and the counter `drawCount` are the model's (log entries 3 and 4). -/
def Obligations.BinaryIgnoresMagnitude : Prop :=
  ∀ (s : State) (reserved : BitVec 30) (u v : F32) (ca cd : Rgba) (t t' : Texture), Ready s ca cd t →
    t.w ≠ 0 → t.h ≠ 0 → t'.w = t.w → t'.h = t.h →
    (∀ x y, t.data.read (x, y) = 0 ↔ t'.data.read (x, y) = 0) →
      ∃ c, (c = ca ∨ c = cd) ∧
        exec (.pixBinary reserved u v) s =
          .next { s with outputs := s.outputs ++ [c], drawCount := s.drawCount + 1 } ∧
        exec (.pixBinary reserved u v) { s with tex := some t' } =
          .next { s with tex := some t', outputs := s.outputs ++ [c], drawCount := s.drawCount + 1 }

/-- R93: on a texture whose texels are all 0 or 255, PIX.BINARY and PIX.DENSITY give the same colour, but for a `-0` channel.
The list of responses and the counter `drawCount` are the model's (log entries 3 and 4). -/
def Obligations.BinaryAndDensityAgreeAtTheEnds : Prop :=
  ∀ (s : State) (reserved : BitVec 30) (u v : F32) (ca cd : Rgba) (t : Texture), Ready s ca cd t →
    t.w ≠ 0 → t.h ≠ 0 → FiniteColour ca → FiniteColour cd →
    (∀ x y, t.data.read (x, y) = 0 ∨ t.data.read (x, y) = 255) →
      ∃ c,
        exec (.pixBinary reserved u v) s =
          .next { s with outputs := s.outputs ++ [c], drawCount := s.drawCount + 1 } ∧
        exec (.pixDensity reserved u v) s =
          .next { s with outputs := s.outputs ++ [plusZeroes c], drawCount := s.drawCount + 1 }

/-! ## Refusals (60_exceptions.md) -/

/-- R101: the refusals decided before any texture access: whatever the texture is. -/
def Obligations.RefusalsBeforeAnyTextureAccess : Prop :=
  ∀ (s : State) (req : Req) (rest : List Input), s.inputs = .request req :: rest →
    (s.cfg.get 0 = none → step s = .refused .configUnwritten) ∧
    (∀ cfg0 : U32, s.cfg.get 0 = some cfg0 → cfg0.toNat % 4 = 3 → step s = .refused .reservedMode) ∧
    (∀ (cfg0 : U32) (n : Fin 9), s.cfg.get 0 = some cfg0 → cfg0.toNat % 4 ≠ 3 → s.cfg.get n = none →
      step s = .refused .configUnwritten)

/-- R102, R104: the refusals that concern the texture, once every register is written and the mode is legal. A packed texture
that has the cell's texel is not refused, whatever its shape: it is decoded, and the response is the alive or the dead colour by
the cell's bit (R79). The list of responses and the counter `drawCount` are the model's (log entries 3 and 4). -/
def Obligations.RefusalsOfTheTexture : Prop :=
  ∀ (s : State) (req : Req) (rest : List Input) (cfg0 : U32) (ca cd : Rgba),
    s.inputs = .request req :: rest → s.cfg.get 0 = some cfg0 → s.cfg.ca = some ca → s.cfg.cd = some cd →
      (s.tex = none → cfg0.toNat % 4 ≠ 3 → step s = .refused .noTexture) ∧
      (∀ t, s.tex = some t → cfg0.toNat % 4 = 1 ∨ cfg0.toNat % 4 = 2 → t.w = 0 ∨ t.h = 0 →
        step s = .refused .zeroDimension) ∧
      (∀ t, s.tex = some t → cfg0.toNat % 4 = 0 →
        ∃ x y, ColumnOf (reqU req) 64 x ∧ RowOf (reqV req) 64 y ∧
          (t.w.toNat ≤ 2 * y + x / 32 ∨ t.h = 0 → step s = .refused .texelOutOfBounds) ∧
          (2 * y + x / 32 < t.w.toNat → t.h ≠ 0 →
            step s = .next { s with
              inputs := rest,
              outputs := s.outputs ++ [if (t.data.read (2 * y + x / 32, 0)).getLsbD (x % 32) then ca else cd],
              drawCount := s.drawCount + 1 }))

/-- R32, R67: no scalar operation ever leaves its texture, in any state. -/
def Obligations.ScalarOperationsNeverLeaveTheTexture : Prop :=
  ∀ (s : State) (reserved : BitVec 30) (u v : F32),
    exec (.pixDensity reserved u v) s ≠ .refused .texelOutOfBounds ∧
    exec (.pixBinary reserved u v) s ≠ .refused .texelOutOfBounds

/-- R99: a refused step was a request's, no host move is refused, and its reason is one of the five of the closed list. -/
def Obligations.OnlyRequestsAreRefusedAndOnlyForTheFiveReasons : Prop :=
  ∀ (s : State) (r : Refusal), step s = .refused r →
    (∃ req rest, s.inputs = .request req :: rest) ∧
    (r = .configUnwritten ∨ r = .reservedMode ∨ r = .noTexture ∨ r = .zeroDimension ∨ r = .texelOutOfBounds)

/-! ## The host's contract and whole passes (70_reset_and_hazards.md) -/

/-- R123, R94: every invocation inside the contract (the nine registers written, MODE legal, a texture of the mode's shape)
completes, with one response. The list of responses and the counter `drawCount` are the model's (log entries 3 and 4). -/
def Obligations.InvocationsInsideTheContractComplete : Prop :=
  ∀ (s : State) (req : Req) (rest : List Input) (cfg0 : U32) (t : Texture),
    s.inputs = .request req :: rest → s.cfg.get 0 = some cfg0 → (∀ n, s.cfg.get n ≠ none) →
    s.tex = some t → ShapeFor (modeField cfg0) t →
      ∃ c, step s =
        .next { s with inputs := rest, outputs := s.outputs ++ [c], drawCount := s.drawCount + 1 }

/-- R13, R111, R118: nothing of the past has any influence: two states with the same registers, texture and next request give
the same response, where nothing is drawn. The list of responses and the counter `drawCount` are the model's (log entries 3
and 4). -/
def Obligations.HistoryHasNoInfluence : Prop :=
  ∀ (s s' : State) (req : Req) (rest rest' : List Input) (ca cd : Rgba),
    s.inputs = .request req :: rest → s'.inputs = .request req :: rest' →
    s.cfg = s'.cfg → s.tex = s'.tex → Drawless req →
    s.cfg.ca = some ca → s.cfg.cd = some cd →
    (∀ cfg0, s.cfg.mode = some cfg0 → modeField cfg0 = 1 → FiniteColour ca ∧ FiniteColour cd) →
      (∀ c, (∃ d, step s = .next { s with inputs := rest, outputs := s.outputs ++ [c], drawCount := d }) →
        ∃ d, step s' = .next { s' with inputs := rest', outputs := s'.outputs ++ [c], drawCount := d }) ∧
      (∀ r, step s = .refused r → step s' = .refused r)

/-- R108, R118, R42: a render pass inside the contract is one function of the request, applied pointwise: however many
requests, in whatever order and however often repeated, and whatever was drawn before. Requests and responses as lists and the
counter `drawCount` are the model's (log entries 2, 3 and 4). -/
def Obligations.RenderPassIsPointwise : Prop :=
  ∀ (s : State) (cfg0 : U32) (ca cd : Rgba) (t : Texture),
    s.cfg.get 0 = some cfg0 → Ready s ca cd t → ShapeFor (modeField cfg0) t →
    (modeField cfg0 = 1 → FiniteColour ca ∧ FiniteColour cd) →
      ∃ f : Req → Rgba, ∀ (reqs : List Req) (rest : List Input) (outputs : List Rgba) (k : Nat),
        (∀ req ∈ reqs, Drawless req) →
          runSteps reqs.length { s with inputs := reqs.map Input.request ++ rest, outputs := outputs, drawCount := k } =
            .next { s with inputs := rest, outputs := outputs ++ reqs.map f, drawCount := k + reqs.length }
end

