-- ==== Sys2Proof/Laws/Mapper.lean ====
section
/-!
SUPPORT. The clamp, the draw of an index and the last stage of MAP stay in bounds.
-/

namespace Sys2Proof.Machine

/-- The clamp as an integer. -/
theorem clampIndex_cast (i : Int) {dim : Nat} (h : 1 ≤ dim) :
    (clampIndex i dim : Int) = max 0 (min ((dim : Int) - 1) i) := by
  unfold clampIndex; omega

theorem clampIndex_lt (i : Int) {dim : Nat} (h : 1 ≤ dim) : clampIndex i dim < dim := by
  unfold clampIndex; omega

theorem drawIndex_lt (drawn : U32) {dim : Nat} (h : 1 ≤ dim) : drawIndex dim drawn < dim :=
  Nat.mod_lt _ h

/-- Every index in bounds can be drawn (R66: the set is all of them). -/
theorem drawIndex_surjective {dim x : Nat} (hx : x < dim) (hd : dim ≤ 2 ^ 32) :
    ∃ drawn : U32, drawIndex dim drawn = x := by
  refine ⟨BitVec.ofNat 32 x, ?_⟩
  simp only [drawIndex, BitVec.toNat_ofNat]
  rw [Nat.mod_eq_of_lt (by omega : x < 2 ^ 32), Nat.mod_eq_of_lt hx]

/-- Whatever the scaled coordinate is, its index is in bounds. -/
theorem indexOf_lt (e : Ext) (drawn : U32) {dim : Nat} (h : 1 ≤ dim) : indexOf e dim drawn < dim := by
  cases e with
  | fin n => exact clampIndex_lt _ h
  | posInf => simp only [indexOf]; omega
  | negInf => simp only [indexOf]; omega
  | nan => exact drawIndex_lt _ h

/-- The value of a finite pattern, of an infinity, and of a NaN. -/
theorem extOf_finite {f : F32} (h : isFinite f = true) : extOf f = .fin (units f) := by
  simp [extOf, h]

theorem extOf_posInf : extOf posInfPattern = .posInf := by decide

theorem extOf_negInf : extOf negInfPattern = .negInf := by decide

theorem extOf_nan {f : F32} (h : isNaN f = true) : extOf f = .nan := by
  have : isFinite f = false := by
    simp only [isNaN, Bool.and_eq_true, beq_iff_eq] at h
    simp [isFinite, h.1]
  simp [extOf, h, this]

/-- The floor of a number of units. -/
theorem floor_units (n : Int) : ⌊(n : ℚ) / 2 ^ 149⌋ = n / oneUnits := by
  have := Rat.floor_intCast_div_natCast n (2 ^ 149)
  push_cast at this
  exact this

/-- The floors of R64 on rationals are the machine's quotients of units. -/
theorem floor_scaledU (f : F32) (w : Nat) : ⌊f32Val f * w⌋ = units f * w / oneUnits := by
  rw [← floor_units, f32Val]; push_cast; congr 1; ring

theorem floor_scaledV (f : F32) (h : Nat) : ⌊(1 - f32Val f) * h⌋ = (oneUnits - units f) * h / oneUnits := by
  rw [← floor_units, f32Val, oneUnits]; push_cast; congr 1; ring

end Sys2Proof.Machine
end

