-- ==== Sys2Proof/Laws/State.lean ====
section
/-!
SUPPORT. What each named update of the state leaves each field as, and what a host move writes.
-/

namespace Sys2Proof.Machine

section WithInputs

variable (s : State) (l : List Input)

@[simp] theorem withInputs_cfg : (s.withInputs l).cfg = s.cfg := rfl
@[simp] theorem withInputs_tex : (s.withInputs l).tex = s.tex := rfl
@[simp] theorem withInputs_inputs : (s.withInputs l).inputs = l := rfl
@[simp] theorem withInputs_outputs : (s.withInputs l).outputs = s.outputs := rfl
@[simp] theorem withInputs_drawCount : (s.withInputs l).drawCount = s.drawCount := rfl

end WithInputs

section WithCfg

variable (s : State) (c : CfgRegs)

@[simp] theorem withCfg_cfg : (s.withCfg c).cfg = c := rfl
@[simp] theorem withCfg_tex : (s.withCfg c).tex = s.tex := rfl
@[simp] theorem withCfg_inputs : (s.withCfg c).inputs = s.inputs := rfl
@[simp] theorem withCfg_outputs : (s.withCfg c).outputs = s.outputs := rfl
@[simp] theorem withCfg_drawCount : (s.withCfg c).drawCount = s.drawCount := rfl

end WithCfg

section WithTex

variable (s : State) (t : Option Texture)

@[simp] theorem withTex_cfg : (s.withTex t).cfg = s.cfg := rfl
@[simp] theorem withTex_tex : (s.withTex t).tex = t := rfl
@[simp] theorem withTex_inputs : (s.withTex t).inputs = s.inputs := rfl
@[simp] theorem withTex_outputs : (s.withTex t).outputs = s.outputs := rfl
@[simp] theorem withTex_drawCount : (s.withTex t).drawCount = s.drawCount := rfl

end WithTex

section Respond

variable (s : State) (c : Rgba)

@[simp] theorem respond_cfg : (s.respond c).cfg = s.cfg := rfl
@[simp] theorem respond_tex : (s.respond c).tex = s.tex := rfl
@[simp] theorem respond_inputs : (s.respond c).inputs = s.inputs := rfl
@[simp] theorem respond_outputs : (s.respond c).outputs = s.outputs ++ [c] := rfl
@[simp] theorem respond_drawCount : (s.respond c).drawCount = s.drawCount + 1 := rfl

end Respond

section Issue

variable (s : State) (w : U32) (req : Req)

@[simp] theorem issue_mode : (s.issue w req).cfg.mode = some w := rfl
@[simp] theorem issue_tex : (s.issue w req).tex = some (s.tex.getD setUpTexture) := rfl
@[simp] theorem issue_inputs : (s.issue w req).inputs = .request req :: s.inputs := rfl
@[simp] theorem issue_outputs : (s.issue w req).outputs = s.outputs := rfl
@[simp] theorem issue_drawCount : (s.issue w req).drawCount = s.drawCount := rfl

end Issue

/-- A host move takes nothing from what is still to come. -/
@[simp] theorem applyHost_inputs (m : HostMove) (s : State) : (applyHost m s).inputs = s.inputs := by
  cases m <;> rfl

/-- A host move delivers no response. -/
@[simp] theorem applyHost_outputs (m : HostMove) (s : State) : (applyHost m s).outputs = s.outputs := by
  cases m <;> rfl

/-- A host move draws nothing. -/
@[simp] theorem applyHost_drawCount (m : HostMove) (s : State) : (applyHost m s).drawCount = s.drawCount := by
  cases m <;> rfl

end Sys2Proof.Machine
end

