-- ==== Sys2Proof/Laws/Ops.lean ====
section
/-!
SUPPORT. For each shared operation, everything it can answer: the readers of an invocation's inputs, the two fetches of a texel,
the three operations, and one step.
-/

namespace Sys2Proof.Machine

/-- `readInputs` answers exactly the two colours and the texture. -/
theorem readInputs_ok {s : State} {i : Inputs} :
    readInputs s = .ok i ↔ s.cfg.ca = some i.ca ∧ s.cfg.cd = some i.cd ∧ s.tex = some i.tex := by
  obtain ⟨ca, cd, tex⟩ := i
  unfold readInputs
  cases s.cfg.ca <;> cases s.cfg.cd <;> cases s.tex <;> simp

/-- `readInputs` fails for a colour register never written, and else for want of a texture. -/
theorem readInputs_error {s : State} {r : Refusal} :
    readInputs s = .error r ↔
      ((s.cfg.ca = none ∨ s.cfg.cd = none) ∧ r = .configUnwritten) ∨
      (s.cfg.ca ≠ none ∧ s.cfg.cd ≠ none ∧ s.tex = none ∧ r = .noTexture) := by
  unfold readInputs
  cases s.cfg.ca <;> cases s.cfg.cd <;> cases s.tex <;> simp [eq_comm]

/-- Only the registers, the texture and nothing else are read. -/
theorem readInputs_congr {s s' : State} (hc : s.cfg.ca = s'.cfg.ca) (hd : s.cfg.cd = s'.cfg.cd) (ht : s.tex = s'.tex) :
    readInputs s = readInputs s' := by
  simp only [readInputs, hc, hd, ht]

/-- `fetch` answers the operation decoded from a written select word. -/
theorem fetch_ok {s : State} {req : Req} {i : Instr} :
    fetch s req = .ok i ↔ ∃ w, s.cfg.mode = some w ∧ decode w req = .ok i := by
  unfold fetch
  cases s.cfg.mode with
  | none => simp
  | some w => cases h : decode w req with
    | ok j => simp [h]
    | error e => cases e; simp [h]

/-- `fetch` fails for a select word never written, or for one that selects nothing. -/
theorem fetch_error {s : State} {req : Req} {r : Refusal} :
    fetch s req = .error r ↔
      (s.cfg.mode = none ∧ r = .configUnwritten) ∨
      ∃ w, s.cfg.mode = some w ∧ decode w req = .error .reservedMode ∧ r = .reservedMode := by
  unfold fetch
  cases s.cfg.mode with
  | none => simp [eq_comm]
  | some w => cases h : decode w req with
    | ok j => simp [h]
    | error e => cases e; simp [h, eq_comm]

/-- `TexRead` inside the bounds. -/
theorem texRead_of_holds {t : Texture} {x y : Nat} (h : t.holds x y = true) :
    t.texRead x y = some (t.data.read (x, y)) := by
  simp [Texture.texRead, h]

/-- `TexRead` outside the bounds. -/
theorem texRead_of_not_holds {t : Texture} {x y : Nat} (h : t.holds x y = false) : t.texRead x y = none := by
  simp [Texture.texRead, h]

/-- `TexDim` of a texture with a texel. -/
theorem texDim_of_ne {t : Texture} (hw : t.w ≠ 0) (hh : t.h ≠ 0) : t.texDim = some (t.w.toNat, t.h.toNat) :=
  if_neg (not_or.mpr ⟨hw, hh⟩)

/-- PIX.PACKED answers a colour of its inputs' pair, or one of the refusals of its reads. -/
theorem pixPacked_cases (num : Config.Reading) (u v : F32) (s : State) :
    (∃ i alive, readInputs s = .ok i ∧ fetchPacked num u v i.tex s.drawCount = .ok alive ∧
      pixPacked num u v s = .next (s.respond (sel alive i.ca i.cd))) ∨
    (∃ r, pixPacked num u v s = .refused r ∧
      (readInputs s = .error r ∨
        ∃ i, readInputs s = .ok i ∧ fetchPacked num u v i.tex s.drawCount = .error r)) := by
  unfold pixPacked
  cases h : readInputs s with
  | error r => exact .inr ⟨r, rfl, .inl rfl⟩
  | ok i => cases h' : fetchPacked num u v i.tex s.drawCount with
    | error r => exact .inr ⟨r, by simp [h'], .inr ⟨i, rfl, h'⟩⟩
    | ok alive => exact .inl ⟨i, alive, rfl, h', by simp [h']⟩

/-- PIX.DENSITY answers the interpolated colour, or one of the refusals of its reads. -/
theorem pixDensity_cases (num : Config.Reading) (u v : F32) (s : State) :
    (∃ i value, readInputs s = .ok i ∧ fetchScalar num u v i.tex s.drawCount = .ok value ∧
      pixDensity num u v s = .next (s.respond (lerp num i.cd i.ca value s.drawCount))) ∨
    (∃ r, pixDensity num u v s = .refused r ∧
      (readInputs s = .error r ∨
        ∃ i, readInputs s = .ok i ∧ fetchScalar num u v i.tex s.drawCount = .error r)) := by
  unfold pixDensity
  cases h : readInputs s with
  | error r => exact .inr ⟨r, rfl, .inl rfl⟩
  | ok i => cases h' : fetchScalar num u v i.tex s.drawCount with
    | error r => exact .inr ⟨r, by simp [h'], .inr ⟨i, rfl, h'⟩⟩
    | ok value => exact .inl ⟨i, value, rfl, h', by simp [h']⟩

/-- PIX.BINARY answers a colour of its inputs' pair, or one of the refusals of its reads. -/
theorem pixBinary_cases (num : Config.Reading) (u v : F32) (s : State) :
    (∃ i value, readInputs s = .ok i ∧ fetchScalar num u v i.tex s.drawCount = .ok value ∧
      pixBinary num u v s = .next (s.respond (sel (thresh value) i.ca i.cd))) ∨
    (∃ r, pixBinary num u v s = .refused r ∧
      (readInputs s = .error r ∨
        ∃ i, readInputs s = .ok i ∧ fetchScalar num u v i.tex s.drawCount = .error r)) := by
  unfold pixBinary
  cases h : readInputs s with
  | error r => exact .inr ⟨r, rfl, .inl rfl⟩
  | ok i => cases h' : fetchScalar num u v i.tex s.drawCount with
    | error r => exact .inr ⟨r, by simp [h'], .inr ⟨i, rfl, h'⟩⟩
    | ok value => exact .inl ⟨i, value, rfl, h', by simp [h']⟩

/-- An operation responds or refuses; it does nothing else. -/
theorem exec_cases (i : Instr) (s : State) :
    (∃ c, exec i s = .next (s.respond c)) ∨ ∃ r, exec i s = .refused r := by
  cases i with
  | pixPacked reserved u v =>
    rcases pixPacked_cases Config.num u v s with ⟨_, _, _, _, h⟩ | ⟨r, h, _⟩
    · exact .inl ⟨_, h⟩
    · exact .inr ⟨r, h⟩
  | pixDensity reserved u v =>
    rcases pixDensity_cases Config.num u v s with ⟨_, _, _, _, h⟩ | ⟨r, h, _⟩
    · exact .inl ⟨_, h⟩
    · exact .inr ⟨r, h⟩
  | pixBinary reserved u v =>
    rcases pixBinary_cases Config.num u v s with ⟨_, _, _, _, h⟩ | ⟨r, h, _⟩
    · exact .inl ⟨_, h⟩
    · exact .inr ⟨r, h⟩

/-- Everything a step that goes on can be: idle, a host move, or a request's operation with its response. -/
theorem step_next_cases {s t : State} (h : step s = .next t) :
    (s.inputs = [] ∧ t = s) ∨
    (∃ m rest, s.inputs = .host m :: rest ∧ t = applyHost m (s.withInputs rest)) ∨
    (∃ req rest i c, s.inputs = .request req :: rest ∧ fetch s req = .ok i ∧ t = (s.withInputs rest).respond c) := by
  unfold step at h
  cases hi : s.inputs with
  | nil => simp only [hi] at h; cases h; exact .inl ⟨rfl, rfl⟩
  | cons head rest => cases head with
    | host m => simp only [hi] at h; cases h; exact .inr (.inl ⟨m, rest, rfl, rfl⟩)
    | request req =>
      simp only [hi] at h
      cases hf : fetch s req with
      | error r => simp [hf] at h
      | ok i =>
        simp only [hf] at h
        rcases exec_cases i (s.withInputs rest) with ⟨c, hc⟩ | ⟨r, hr⟩
        · rw [hc] at h; cases h; exact .inr (.inr ⟨req, rest, i, c, rfl, hf, rfl⟩)
        · rw [hr] at h; cases h

end Sys2Proof.Machine
end

