-- ==== Sys2Proof/Laws/Decoders.lean ====
section
/-!
SUPPORT. What the sub-operations of the decoders answer: BITX, THRESH, PKADDR, and the two fetches of a texel.
-/

namespace Sys2Proof.Machine

/-- BITX reads the bit of its number. -/
theorem bitX_eq (word : U32) (bit : Nat) : bitX word bit = word.getLsbD bit := by
  rw [Bool.eq_iff_iff, bitX, beq_iff_eq, ← BitVec.toNat_inj]
  simp [BitVec.getLsbD, Nat.testBit, Nat.and_comm]

/-- THRESH tells zero from the rest. -/
theorem thresh_eq_false_iff (value : U32) : thresh value = false ↔ value = 0 := by
  rw [thresh, decide_eq_false_iff_not, ← BitVec.toNat_inj]
  simp

/-- PKADDR as the equations of R73. -/
theorem pkAddr_eq (r c : Nat) (h : c ≤ 63) : pkAddr r c = { tx := 2 * r + c / 32, ty := 0, bit := c % 32 } := by
  unfold pkAddr
  split
  · next hc =>
    have hc' : c < 32 := hc
    rw [PackedAddr.mk.injEq]
    exact ⟨by simp only [Config.wordsPerRow]; omega, rfl, by omega⟩
  · next hc =>
    have hc' : ¬ c < 32 := hc
    rw [PackedAddr.mk.injEq]
    exact ⟨by simp only [Config.wordsPerRow]; omega, rfl, by simp only [Config.wordBits]; omega⟩

/-- The bounds of a texture as propositions. -/
theorem holds_iff (t : Texture) (x y : Nat) : t.holds x y = true ↔ x < t.w.toNat ∧ y < t.h.toNat := by
  simp [Texture.holds]

/-- A coordinate's packed cell lies on the logical grid. -/
theorem packedCell_le (num : Config.Reading) (u v : F32) (k : Nat) : mapX num u 64 k ≤ 63 ∧ mapY num v 64 k ≤ 63 := by
  have hx := indexOf_lt (scaledU num u 64) (Config.freeDraw k .column) (dim := 64) (by decide)
  have hy := indexOf_lt (scaledV num v 64) (Config.freeDraw k .row) (dim := 64) (by decide)
  simp only [mapX, mapY]
  omega

/-- The packed address of a coordinate, as the equations of R73. -/
theorem packedAddrOf_eq (num : Config.Reading) (u v : F32) (k : Nat) :
    packedAddrOf num u v k =
      { tx := 2 * mapY num v 64 k + mapX num u 64 k / 32, ty := 0, bit := mapX num u 64 k % 32 } :=
  pkAddr_eq _ _ (packedCell_le num u v k).1

/-- The fetch of PIX.PACKED: one bit of the texel of the coordinate's cell, or that texel does not exist. -/
theorem fetchPacked_eq (num : Config.Reading) (u v : F32) (t : Texture) (k : Nat) :
    fetchPacked num u v t k =
      if 2 * mapY num v 64 k + mapX num u 64 k / 32 < t.w.toNat ∧ 0 < t.h.toNat then
        .ok ((t.data.read (2 * mapY num v 64 k + mapX num u 64 k / 32, 0)).getLsbD (mapX num u 64 k % 32))
      else .error .texelOutOfBounds := by
  simp only [fetchPacked, packedAddrOf_eq, Texture.texRead, holds_iff]
  by_cases h : 2 * mapY num v 64 k + mapX num u 64 k / 32 < t.w.toNat ∧ 0 < t.h.toNat
  · rw [if_pos h, if_pos h]; exact congrArg _ (bitX_eq _ _)
  · rw [if_neg h, if_neg h]

/-- The fetch of the scalar operations on a texture with a texel: the texel MAP gives, which is in bounds. -/
theorem fetchScalar_eq (num : Config.Reading) (u v : F32) {t : Texture} (k : Nat) (hw : t.w ≠ 0) (hh : t.h ≠ 0) :
    mapX num u t.w.toNat k < t.w.toNat ∧ mapY num v t.h.toNat k < t.h.toNat ∧
    fetchScalar num u v t k = .ok (t.data.read (mapX num u t.w.toNat k, mapY num v t.h.toNat k)) := by
  have hw' : 1 ≤ t.w.toNat := by
    have : t.w.toNat ≠ 0 := fun h => hw (by rw [← BitVec.toNat_inj, h]; rfl)
    omega
  have hh' : 1 ≤ t.h.toNat := by
    have : t.h.toNat ≠ 0 := fun h => hh (by rw [← BitVec.toNat_inj, h]; rfl)
    omega
  have hx : mapX num u t.w.toNat k < t.w.toNat := indexOf_lt _ _ hw'
  have hy : mapY num v t.h.toNat k < t.h.toNat := indexOf_lt _ _ hh'
  refine ⟨hx, hy, ?_⟩
  simp only [fetchScalar, texDim_of_ne hw hh, mapIndex, texRead_of_holds ((holds_iff _ _ _).mpr ⟨hx, hy⟩)]

/-- The fetch of the scalar operations on a texture without a texel. -/
theorem fetchScalar_zero (num : Config.Reading) (u v : F32) {t : Texture} (k : Nat) (h : t.w = 0 ∨ t.h = 0) :
    fetchScalar num u v t k = .error .zeroDimension := by
  simp only [fetchScalar, Texture.texDim, if_pos h]

end Sys2Proof.Machine
end

