-- ==== Sys2Proof/Laws/Encoding.lean ====
section
/-!
SUPPORT. The words of an operation as numbers: the select word is four times its reserved field plus its code, the request word is `u`
plus 2^32 times `v`.
-/

namespace Sys2Proof

theorem selectWord_toNat (reserved : BitVec 30) (mode : BitVec 2) :
    (selectWord reserved mode).toNat = 4 * reserved.toNat + mode.toNat := by
  have hm := mode.isLt
  simp only [selectWord, BitVec.toNat_append]
  rw [← Nat.shiftLeft_add_eq_or_of_lt hm, Nat.shiftLeft_eq]
  omega

theorem reqWord_toNat (u v : F32) : (reqWord u v).toNat = u.toNat + 2 ^ 32 * v.toNat := by
  have hu := u.isLt
  simp only [reqWord, BitVec.toNat_append]
  rw [← Nat.shiftLeft_add_eq_or_of_lt hu, Nat.shiftLeft_eq]
  omega

@[simp] theorem modeField_toNat (w : U32) : (modeField w).toNat = w.toNat % 4 := by
  simp [modeField]

@[simp] theorem reservedField_toNat (w : U32) : (reservedField w).toNat = w.toNat / 4 := by
  have := w.isLt
  simp only [reservedField, BitVec.extractLsb'_toNat, Nat.shiftRight_eq_div_pow]
  omega

@[simp] theorem reqU_toNat (req : Req) : (reqU req).toNat = req.toNat % 2 ^ 32 := by
  simp [reqU]

@[simp] theorem reqV_toNat (req : Req) : (reqV req).toNat = req.toNat / 2 ^ 32 := by
  have := req.isLt
  simp only [reqV, BitVec.extractLsb'_toNat, Nat.shiftRight_eq_div_pow]
  omega

end Sys2Proof
end

