-- ==== Sys2Proof/Laws/Memory.lean ====
section
/-!
SUPPORT. Every operation on a texture's contents keeps the listing canonical and inside the texture, and the empty listing of
reset and of a fresh texture has that form.
-/

namespace Sys2Proof.Machine

/-- The order of the listing goes by row, then by column. -/
theorem addrLt_iff (p q : Addr) : addrLt p q = true ↔ p.2 < q.2 ∨ (p.2 = q.2 ∧ p.1 < q.1) := by
  simp [addrLt]

theorem addrLt_trans {p q r : Addr} (h : addrLt p q = true) (h' : addrLt q r = true) : addrLt p r = true := by
  rw [addrLt_iff] at *; omega

/-- Two addresses neither equal nor in one order stand in the other. -/
theorem addrLt_of_not {p q : Addr} (h : q ≠ p) (h' : addrLt p q = false) : addrLt q p = true := by
  have : ¬ addrLt p q = true := by simp [h']
  rw [addrLt_iff] at *
  rcases p with ⟨a, b⟩; rcases q with ⟨c, d⟩
  simp only [ne_eq, Prod.mk.injEq] at *
  omega

/-- The parts of a canonical listing that is not empty. -/
theorem wf_cons {p : Addr} {v : U32} {rest : Memory} :
    Memory.wf ((p, v) :: rest) = true ↔
      v ≠ Memory.unlisted ∧ (∀ e ∈ rest, addrLt p e.1 = true) ∧ Memory.wf rest = true := by
  simp [Memory.wf, and_assoc]

/-- A texel put in front of a canonical listing that it precedes. -/
theorem push_wf {p : Addr} {v : U32} {m : Memory} (h : Memory.wf m = true) (hp : ∀ e ∈ m, addrLt p e.1 = true) :
    Memory.wf (Memory.push p v m) = true := by
  unfold Memory.push
  split
  · exact h
  · exact wf_cons.mpr ⟨‹_›, hp, h⟩

/-- What a listing holds after a texel is put in front of it. -/
theorem mem_push {p : Addr} {v : U32} {m : Memory} {e : Addr × U32} (h : e ∈ Memory.push p v m) :
    e = (p, v) ∨ e ∈ m := by
  unfold Memory.push at h
  split at h
  · exact .inr h
  · simpa using h

/-- What a listing holds after a write: the written texel, or what it held. -/
theorem mem_write {m : Memory} {p : Addr} {v : U32} {e : Addr × U32} (h : e ∈ Memory.write m p v) :
    e = (p, v) ∨ e ∈ m := by
  induction m with
  | nil => simpa using mem_push h
  | cons head rest ih =>
    obtain ⟨q, w⟩ := head
    simp only [Memory.write] at h
    split at h
    · rcases mem_push h with h | h
      · exact .inl h
      · exact .inr (List.mem_cons_of_mem _ h)
    · split at h
      · exact mem_push h
      · rcases List.mem_cons.mp h with h | h
        · exact .inr (h ▸ List.mem_cons_self)
        · rcases ih h with h | h
          · exact .inl h
          · exact .inr (List.mem_cons_of_mem _ h)

/-- A write keeps the listing canonical. -/
theorem write_wf {m : Memory} (p : Addr) (v : U32) (h : Memory.wf m = true) : Memory.wf (Memory.write m p v) = true := by
  induction m with
  | nil => exact push_wf h (by simp)
  | cons head rest ih =>
    obtain ⟨q, w⟩ := head
    obtain ⟨hw, hq, hr⟩ := wf_cons.mp h
    simp only [Memory.write]
    split
    · next hqp => subst hqp; exact push_wf hr hq
    · next hqp =>
      split
      · next hlt =>
        refine push_wf h fun e he => ?_
        rcases List.mem_cons.mp he with he | he
        · exact he ▸ hlt
        · exact addrLt_trans hlt (hq e he)
      · next hlt =>
        refine wf_cons.mpr ⟨hw, fun e he => ?_, ih hr⟩
        rcases mem_write he with he | he
        · exact he ▸ addrLt_of_not hqp (by simpa using hlt)
        · exact hq e he

@[simp] theorem texture_write_w (t : Texture) (x y : Nat) (v : U32) : (t.write x y v).w = t.w := by
  unfold Texture.write; split <;> rfl

@[simp] theorem texture_write_h (t : Texture) (x y : Nat) (v : U32) : (t.write x y v).h = t.h := by
  unfold Texture.write; split <;> rfl

@[simp] theorem texture_write_holds (t : Texture) (x y : Nat) (v : U32) (a b : Nat) :
    (t.write x y v).holds a b = t.holds a b := by
  simp [Texture.holds]

/-- The two parts of a texture's canonical form. -/
theorem texture_wf_iff (t : Texture) :
    t.wf = true ↔ Memory.wf t.data = true ∧ ∀ e ∈ t.data, t.holds e.1.1 e.1.2 = true := by
  simp [Texture.wf]

/-- A host write keeps the texture's listing canonical and inside it. -/
theorem texture_write_wf {t : Texture} (x y : Nat) (v : U32) (h : t.wf = true) : (t.write x y v).wf = true := by
  rw [texture_wf_iff] at *
  simp only [texture_write_holds]
  by_cases hb : t.holds x y = true
  · simp only [Texture.write, hb, if_true]
    refine ⟨write_wf _ _ h.1, fun e he => ?_⟩
    rcases mem_write he with he | he
    · subst he; exact hb
    · exact h.2 e he
  · simpa [Texture.write, hb] using h

/-- Writing a list of texels keeps the form. -/
theorem texture_writeAll_wf (texels : List (Addr × U32)) {t : Texture} (h : t.wf = true) :
    (t.writeAll texels).wf = true := by
  induction texels generalizing t with
  | nil => exact h
  | cons e rest ih => exact ih (texture_write_wf _ _ _ h)

/-- A texture the host attaches has the form. -/
theorem texture_build_wf (w h : U32) (texels : List (Addr × U32)) : (Texture.build w h texels).wf = true :=
  texture_writeAll_wf texels rfl

/-- The texture of the host's set-up has the form. -/
theorem setUpTexture_wf : setUpTexture.wf = true := rfl

end Sys2Proof.Machine
end

