-- ==== Sys2Proof/Laws/PerInstr.lean ====
section
/-!
SUPPORT. Per-instruction families: about the operation as syntax.
-/

namespace Sys2Proof.Laws.TableCode

/-- The `match` of an operation's row of spec/opcode_table.json. -/
def tableMatch (i : Instr) : U32 :=
  match i with
  | .pixPacked _ _ _ => 0x00000000
  | .pixDensity _ _ _ => 0x00000001
  | .pixBinary _ _ _ => 0x00000002

/-- The operation's select word has its row's `match` under the row's `mask` (0x00000003 in every row), and is that `match`
itself exactly if the operation is well-formed. -/
def Statement (i : Instr) : Prop :=
  (encode i).1 &&& 0x00000003 = tableMatch i ∧ (i.wellFormed = true ↔ (encode i).1 = tableMatch i)

/-- A select word's mode bits, under the mask. -/
theorem selectWord_and (reserved : BitVec 30) (mode : BitVec 2) : selectWord reserved mode &&& 3 = mode.setWidth 32 := by
  have hm := mode.isLt
  apply BitVec.eq_of_toNat_eq
  rw [BitVec.toNat_and, selectWord_toNat]
  simp only [BitVec.toNat_setWidth, BitVec.ofNat_eq_ofNat, BitVec.toNat_ofNat]
  rw [show 3 % 2 ^ 32 = 2 ^ 2 - 1 from rfl, Nat.and_two_pow_sub_one_eq_mod]
  omega

/-- A select word's reserved bits are zero exactly if it is its code alone. -/
theorem selectWord_eq_iff (reserved : BitVec 30) (mode : BitVec 2) : reserved = 0 ↔ selectWord reserved mode = mode.setWidth 32 := by
  have hm := mode.isLt
  rw [← BitVec.toNat_inj, ← BitVec.toNat_inj, selectWord_toNat]
  simp only [BitVec.toNat_setWidth, BitVec.ofNat_eq_ofNat, BitVec.toNat_ofNat]
  omega

/-- Well-formedness is the reserved bits being zero. -/
theorem wellFormed_iff (i : Instr) : i.wellFormed = true ↔ i.reservedBits = 0 := by
  simp [Instr.wellFormed]

theorem pixPacked (reserved : BitVec 30) (u v : F32) : Statement (.pixPacked reserved u v) :=
  ⟨selectWord_and reserved 0, (wellFormed_iff _).trans (selectWord_eq_iff reserved 0)⟩

theorem pixDensity (reserved : BitVec 30) (u v : F32) : Statement (.pixDensity reserved u v) :=
  ⟨selectWord_and reserved 1, (wellFormed_iff _).trans (selectWord_eq_iff reserved 1)⟩

theorem pixBinary (reserved : BitVec 30) (u v : F32) : Statement (.pixBinary reserved u v) :=
  ⟨selectWord_and reserved 2, (wellFormed_iff _).trans (selectWord_eq_iff reserved 2)⟩

end Sys2Proof.Laws.TableCode
end

