-- ==== Sys2Proof/Laws/Rounding.lean ====
section
/-!
SUPPORT. What the rounding answers: it depends on the fraction's value alone, and below the overflow threshold its pattern is a
significand of at most 2^24 last places, whose value is that many last places.
-/

namespace Sys2Proof.Machine

theorem divNearestEven_scale (a b : Nat) {c : Nat} (hc : 0 < c) :
    divNearestEven (c * a) (c * b) = divNearestEven a b := by
  simp only [divNearestEven, Nat.mul_div_mul_left _ _ hc, Nat.mul_mod_mul_left]
  have h1 : 2 * (c * (a % b)) < c * b ↔ 2 * (a % b) < b := by
    rw [show 2 * (c * (a % b)) = c * (2 * (a % b)) by ring, Nat.mul_lt_mul_left hc]
  have h2 : c * b < 2 * (c * (a % b)) ↔ b < 2 * (a % b) := by
    rw [show 2 * (c * (a % b)) = c * (2 * (a % b)) by ring, Nat.mul_lt_mul_left hc]
  simp only [h1, h2]

theorem roundMagnitude_scale (a d : Nat) {c : Nat} (hc : 0 < c) :
    roundMagnitude (c * a) (c * d) = roundMagnitude a d := by
  simp only [roundMagnitude, Nat.mul_div_mul_left _ _ hc, Nat.mul_assoc, Nat.mul_le_mul_left_iff hc,
    divNearestEven_scale _ _ hc]

theorem roundUnits_scale (n : Int) (d : Nat) {c : Nat} (hc : 0 < c) : roundUnits (c * n) (c * d) = roundUnits n d := by
  have hz : (c : Int) * n = 0 ↔ n = 0 := by
    rw [Int.mul_eq_zero]; omega
  have hneg : (c : Int) * n < 0 ↔ n < 0 := by
    have hc' : (0 : Int) < c := by omega
    constructor
    · intro h; exact neg_of_mul_neg_right h hc'.le
    · intro h; exact mul_neg_of_pos_of_neg hc' h
  simp only [roundUnits, hz, hneg, Int.natAbs_mul, Int.natAbs_natCast, roundMagnitude_scale _ _ hc]

/-- Equal fractions round alike. -/
theorem roundUnits_congr {n n' : Int} {d d' : Nat} (hd : 0 < d) (hd' : 0 < d') (h : n * d' = n' * d) :
    roundUnits n d = roundUnits n' d' := by
  rw [← roundUnits_scale n d hd', ← roundUnits_scale n' d' hd, mul_comm (d' : Int) n, h, mul_comm (d : Int) n', Nat.mul_comm d' d]

/-- `RN32` of a rational written as a fraction in units of 2^-149. -/
theorem rn32_of_units (n : Int) {d : Nat} (hd : 0 < d) : rn32 ((n : ℚ) / d / 2 ^ 149) = roundUnits n d := by
  unfold rn32
  refine roundUnits_congr (Rat.den_pos _) hd ?_
  set q : ℚ := (n : ℚ) / d / 2 ^ 149 with hq
  have hq' : (q.num : ℚ) = q * q.den := (Rat.mul_den_eq_num q).symm
  have : (q.num : ℚ) * 2 ^ 149 * d = n * q.den := by
    rw [hq', hq]; field_simp
  exact_mod_cast this

/-- The nearest integer is the quotient or the next one. -/
theorem divNearestEven_bounds (a b : Nat) : a / b ≤ divNearestEven a b ∧ divNearestEven a b ≤ a / b + 1 := by
  unfold divNearestEven
  split
  · omega
  · split
    · omega
    · omega

/-- The fields of a pattern whose sign bit is clear (R46). -/
theorem expField_ofNat {n : Nat} (h : n < 2147483648) : expField (BitVec.ofNat 32 n) = n / 8388608 := by
  simp only [expField, BitVec.extractLsb'_toNat, BitVec.toNat_ofNat, Nat.shiftRight_eq_div_pow, Nat.reducePow]
  omega

theorem fracField_ofNat (n : Nat) : fracField (BitVec.ofNat 32 n) = n % 8388608 := by
  simp only [fracField, BitVec.extractLsb'_toNat, BitVec.toNat_ofNat, Nat.shiftRight_eq_div_pow, Nat.reducePow]
  omega

theorem signBit_ofNat {n : Nat} (h : n < 2147483648) : signBit (BitVec.ofNat 32 n) = false := by
  simp only [signBit, BitVec.getLsbD_ofNat, Nat.testBit_eq_decide_div_mod_eq, Nat.reducePow, Nat.reduceLT, decide_true,
    Bool.true_and, decide_eq_false_iff_not]
  omega

/-- A pattern's value from its significand in last places and the place of its last bit. -/
theorem magUnits_assemble {s k : Nat} (hk : k ≤ 16777216) (hn : s = 0 ∨ 8388608 ≤ k)
    (hlt : s * 8388608 + k < 2139095040) : magUnits (BitVec.ofNat 32 (s * 8388608 + k)) = k * 2 ^ s := by
  unfold magUnits
  rw [expField_ofNat (by omega), fracField_ofNat]
  rcases Nat.lt_or_ge k 8388608 with hk' | hk'
  · have hs0 : s = 0 := by omega
    subst hs0
    rw [if_pos (by omega), pow_zero]; omega
  · have hpos : (s * 8388608 + k) / 8388608 ≠ 0 := by omega
    rw [if_neg hpos]
    rcases Nat.lt_or_ge k 16777216 with hk2 | hk2
    · have h1 : (s * 8388608 + k) / 8388608 - 1 = s := by omega
      have h2 : 2 ^ 23 + (s * 8388608 + k) % 8388608 = k := by omega
      rw [h1, h2]
    · have h1 : (s * 8388608 + k) / 8388608 - 1 = s + 1 := by omega
      have h2 : 2 ^ 23 + (s * 8388608 + k) % 8388608 = 8388608 := by omega
      have h3 : k = 8388608 * 2 := by omega
      rw [h1, h2, h3, pow_succ, Nat.mul_comm (2 ^ s) 2, Nat.mul_assoc]

/-- The whole last places of a magnitude, counted at the place `ulpShift` gives: at most 2^24 of them, and above the subnormals
at least 2^23. -/
theorem ulpShift_spec (i : Nat) :
    i / 2 ^ ulpShift i < 16777216 ∧ (ulpShift i = 0 ∨ 8388608 ≤ i / 2 ^ ulpShift i) := by
  have hpow : 0 < 2 ^ ulpShift i := Nat.two_pow_pos _
  rcases Nat.eq_zero_or_pos i with h0 | hpos
  · subst h0; simp [ulpShift]
  · have hlo : 2 ^ Nat.log2 i ≤ i := Nat.log2_self_le (by omega)
    have hhi : i < 2 ^ (Nat.log2 i + 1) := Nat.lt_log2_self
    constructor
    · rw [Nat.div_lt_iff_lt_mul hpow, show 16777216 = 2 ^ 24 from rfl, ← pow_add]
      exact lt_of_lt_of_le hhi (Nat.pow_le_pow_right (by omega) (by unfold ulpShift; omega))
    · rcases Nat.eq_zero_or_pos (ulpShift i) with h | h
      · exact .inl h
      · refine .inr ((Nat.le_div_iff_mul_le hpow).mpr ?_)
        rw [show 8388608 = 2 ^ 23 from rfl, ← pow_add, show 23 + ulpShift i = Nat.log2 i by unfold ulpShift at *; omega]
        exact hlo

/-- Below the threshold the last place is at most the one of the highest exponent. -/
theorem ulpShift_le {i : Nat} (h : i < overflowUnits) : ulpShift i ≤ 253 := by
  by_contra hcon
  have h0 : i ≠ 0 := by rintro rfl; simp [ulpShift] at hcon
  have hlo : 2 ^ Nat.log2 i ≤ i := Nat.log2_self_le h0
  have hmono : 2 ^ 252 * 2 ^ 25 ≤ 2 ^ Nat.log2 i := by
    rw [← pow_add]; exact Nat.pow_le_pow_right (by omega) (by unfold ulpShift at hcon; omega)
  have hov : overflowUnits < 2 ^ 252 * 2 ^ 25 := by decide
  exact absurd (lt_of_lt_of_le (lt_of_lt_of_le h hov.le) (le_trans hmono hlo)) (lt_irrefl i)

/-- In the highest binade the threshold is half a last place above the largest finite number, so what is below it rounds to a
finite number. -/
theorem divNearestEven_top {a d : Nat} (h : a < d * overflowUnits) :
    divNearestEven a (d * 2 ^ 253) ≤ 16777215 := by
  set b := d * 2 ^ 253 with hb
  have h2 : 2 * a < b * 33554431 := by
    have : 2 * (d * overflowUnits) = b * 33554431 := by
      rw [hb, overflowUnits]; ring
    omega
  have hdm := Nat.div_add_mod a b
  unfold divNearestEven
  have hq : a / b ≤ 16777215 := by
    have : a / b < 16777216 := Nat.div_lt_of_lt_mul (by omega)
    omega
  rcases Nat.lt_or_ge (a / b) 16777215 with hlt | hge
  · split
    · omega
    · split <;> omega
  · have he : a / b = 16777215 := by omega
    rw [he] at hdm ⊢
    rw [if_pos (by omega)]

/-- Below the overflow threshold the magnitude is rounded to whole last places: `k` of them at 2^`s` units each, the nearest
number of them, ties to even; above the subnormals `k` has its leading bit. The pattern is finite, its sign bit is clear, and
its value is those `k` last places. -/
theorem roundMagnitude_spec {a d : Nat} (h : a < d * overflowUnits) :
    ∃ s k, k = divNearestEven a (d * 2 ^ s) ∧ k ≤ 16777216 ∧ (s = 0 ∨ 8388608 ≤ a / (d * 2 ^ s)) ∧
      s * 8388608 + k < 2139095040 ∧ roundMagnitude a d = BitVec.ofNat 32 (s * 8388608 + k) ∧
      magUnits (roundMagnitude a d) = k * 2 ^ s := by
  have hi : a / d < overflowUnits := Nat.div_lt_of_lt_mul h
  obtain ⟨hhigh, hlow⟩ := ulpShift_spec (a / d)
  have hs := ulpShift_le hi
  rw [Nat.div_div_eq_div_mul] at hhigh hlow
  obtain ⟨hk1, hk2⟩ := divNearestEven_bounds a (d * 2 ^ ulpShift (a / d))
  have hlt : ulpShift (a / d) * 8388608 + divNearestEven a (d * 2 ^ ulpShift (a / d)) < 2139095040 := by
    rcases Nat.lt_or_ge (ulpShift (a / d)) 253 with hs' | hs'
    · omega
    · have heq : ulpShift (a / d) = 253 := by omega
      have := divNearestEven_top h
      rw [heq]; omega
  have hp : roundMagnitude a d =
      BitVec.ofNat 32 (ulpShift (a / d) * 8388608 + divNearestEven a (d * 2 ^ ulpShift (a / d))) := by
    unfold roundMagnitude; rw [if_neg (Nat.not_le_of_lt h), show (2 : Nat) ^ 23 = 8388608 from rfl]
  refine ⟨ulpShift (a / d), _, rfl, by omega, hlow, hlt, hp, ?_⟩
  rw [hp]
  exact magUnits_assemble (by omega) (by omega) hlt

/-- The sign bit stands apart from the other fields. -/
theorem expField_signed (f : F32) : expField (0x80000000 ||| f) = expField f := by
  unfold expField
  rw [BitVec.extractLsb'_or, show BitVec.extractLsb' 23 8 (0x80000000 : F32) = 0 by decide]
  simp

theorem fracField_signed (f : F32) : fracField (0x80000000 ||| f) = fracField f := by
  unfold fracField
  rw [BitVec.extractLsb'_or, show BitVec.extractLsb' 0 23 (0x80000000 : F32) = 0 by decide]
  simp

theorem signBit_signed (f : F32) : signBit (0x80000000 ||| f) = true := by
  unfold signBit
  rw [BitVec.getLsbD_or, show BitVec.getLsbD (0x80000000 : F32) 31 = true by decide]
  simp

theorem magUnits_signed (f : F32) : magUnits (0x80000000 ||| f) = magUnits f := by
  simp only [magUnits, expField_signed, fracField_signed]

/-- A pattern put together from a significand and a place is finite, with its sign bit clear. -/
theorem finite_assemble {n : Nat} (h : n < 2139095040) :
    isFinite (BitVec.ofNat 32 n) = true ∧ signBit (BitVec.ofNat 32 n) = false := by
  refine ⟨?_, signBit_ofNat (by omega)⟩
  rw [isFinite, expField_ofNat (by omega), bne_iff_ne]
  omega

/-- `RN32` below the threshold, sign and all: a finite pattern whose value is the nearest whole number of last places. -/
theorem roundUnits_spec {n : Int} {d : Nat} (h : n.natAbs < d * overflowUnits) :
    isFinite (roundUnits n d) = true ∧
      ∃ s, (s = 0 ∨ 8388608 ≤ n.natAbs / (d * 2 ^ s)) ∧ divNearestEven n.natAbs (d * 2 ^ s) ≤ 16777216 ∧
        units (roundUnits n d) = n.sign * (divNearestEven n.natAbs (d * 2 ^ s) * 2 ^ s : Nat) := by
  obtain ⟨s, k, hk, hle, hs, hlt, hp, hm⟩ := roundMagnitude_spec h
  obtain ⟨hf, hsg⟩ := finite_assemble hlt
  rw [← hp] at hf hsg
  subst hk
  unfold roundUnits
  rcases lt_trichotomy n 0 with hn | hn | hn
  · rw [if_neg (by omega), if_pos hn]
    refine ⟨by simpa only [isFinite, expField_signed] using hf, s, hs, hle, ?_⟩
    simp only [units, signBit_signed, magUnits_signed, hm, if_true, Int.sign_eq_neg_one_of_neg hn]
    ring
  · subst hn
    rw [if_pos rfl]
    exact ⟨by decide, s, hs, hle, by rw [show units 0 = 0 by decide]; simp⟩
  · rw [if_neg (by omega), if_neg (by omega)]
    refine ⟨hf, s, hs, hle, ?_⟩
    simp [units, hsg, hm, Int.sign_eq_one_of_pos hn]

end Sys2Proof.Machine
end

