-- ==== Sys2Proof/Tests/Slice0.lean ====
section
/-!
SUPPORT. The model's own tests: words written out from the spec's encodings, single steps with results taken from
95_test_vectors.md, and for every obligation with hypotheses a concrete case that meets them.
-/

namespace Sys2Proof.Tests

open Sys2Proof Sys2Proof.Machine

/-! ## Concrete colours, textures and states -/

/-- BLACK, WHITE, AMBER, DUSK, DAWN of 95_test_vectors.md. -/
def black : Rgba := ⟨0, 0, 0, 0x3F800000⟩
def white : Rgba := ⟨0x3F800000, 0x3F800000, 0x3F800000, 0x3F800000⟩
def amber : Rgba := ⟨0x3F800000, 0x3F000000, 0x3E800000, 0x3F800000⟩
def dusk : Rgba := ⟨0x3DCCCCCD, 0x3E4CCCCD, 0x3E99999A, 0x3F800000⟩
def dawn : Rgba := ⟨0x3F333333, 0x3F666666, 0x3ECCCCCD, 0x3F000000⟩

/-- The nine registers written: the select word, the alive colour, the dead colour. -/
def regs (mode : U32) (ca cd : Rgba) : CfgRegs :=
  ⟨some mode, some ca.r, some ca.g, some ca.b, some ca.a, some cd.r, some cd.g, some cd.b, some cd.a⟩

/-- The texture of P1. -/
def gridTex : Texture :=
  .build 128 1 [((0, 0), 1), ((1, 0), 0x80000000), ((11, 0), 0x100), ((126, 0), 0x80000000), ((127, 0), 1)]

/-- The texture of P2. -/
def densityTex : Texture :=
  .build 4 2 [((1, 0), 51), ((2, 0), 128), ((3, 0), 255), ((0, 1), 1), ((1, 1), 254), ((2, 1), 300), ((3, 1), 65664)]

/-- A configured state with one request to come. -/
def asked (mode : U32) (ca cd : Rgba) (t : Texture) (req : Req) : State :=
  { cfg := regs mode ca cd, tex := some t, inputs := [.request req], outputs := [], drawCount := 0 }

/-! ## WellFormed -/

theorem test_well_formed : Instr.wellFormed (.pixDensity 0 0x3F000000 0x7FC00000) = true := by decide

theorem test_reserved_bit_is_not_well_formed : Instr.wellFormed (.pixDensity 1 0x3F000000 0x3F000000) = false := by decide

/-! ## Decode: words written out from R47 and R49 -/

/-- CFG[0] = 0b00, REQ = 0x3F6A0000 above 0x3F220000 (P1, line 5). -/
theorem test_decode_packed :
    decode 0b00000000000000000000000000000000 0b0011111101101010000000000000000000111111001000100000000000000000 =
      .ok (.pixPacked 0 0x3F220000 0x3F6A0000) := by decide

/-- CFG[0] = 0xFFFFFFFD: mode 1, the thirty reserved bits set (P5, step 3). -/
theorem test_decode_density :
    decode 0b11111111111111111111111111111101 0b0011111100000000000000000000000000111111000000000000000000000000 =
      .ok (.pixDensity 0x3FFFFFFF 0x3F000000 0x3F000000) := by decide

/-- CFG[0] = 0b10 (V-MODE-3). -/
theorem test_decode_binary :
    decode 0b00000000000000000000000000000010 0b0011111110000000000000000000000000000000000000000000000000000000 =
      .ok (.pixBinary 0 0x00000000 0x3F800000) := by decide

/-- CFG[0] = 0b111: mode 3, bit 2 ignored (V-MODE-6). -/
theorem test_decode_reserved : decode 0b00000000000000000000000000000111 0 = .error .reservedMode := by decide

theorem test_encode_packed : encode (.pixPacked 0 0x3F220000 0x3F6A0000) = (0x00000000, 0x3F6A00003F220000) := by decide

theorem test_table_word : decodeTableWord 32 0x00000002 = some (.pixBinary 0 0 0) := by decide

/-- The first step after reset runs the row's operation: the set-up texture's texel is 0, so the colour is the dead one. -/
theorem test_first_step_packed : responseOf (step (State.reset.withFetchWord 32 0)) = some ⟨0, 0, 0, 0⟩ := by decide

theorem test_first_step_density : responseOf (step (State.reset.withFetchWord 32 1)) = some ⟨0, 0, 0, 0⟩ := by decide

theorem test_first_step_binary : responseOf (step (State.reset.withFetchWord 32 2)) = some ⟨0, 0, 0, 0⟩ := by decide

/-! ## Numbers (95_test_vectors.md section 2.1) -/

/-- V-RN-1, V-RN-2. -/
theorem test_rn_thirds : roundUnits (3 * 2 ^ 149) 5 = 0x3F19999A ∧ roundUnits (2 ^ 149) 3 = 0x3EAAAAAB := by decide

/-- V-RN-4, V-RN-5: ties go to the even significand. -/
theorem test_rn_ties : roundUnits (2 ^ 149 + 2 ^ 125) 1 = 0x3F800000 ∧ roundUnits (2 ^ 149 + 3 * 2 ^ 125) 1 = 0x3F800002 := by
  decide

/-- V-RN-6 to V-RN-8: subnormal results. -/
theorem test_rn_subnormal : roundUnits 1 1 = 1 ∧ roundUnits 1 2 = 0 ∧ roundUnits 3 2 = 2 := by decide

/-- V-RN-9, V-RN-10, V-RN-12: the threshold, just below it, and a negative value that rounds to zero. -/
theorem test_rn_ends :
    roundUnits overflowUnits 1 = 0x7F800000 ∧ roundUnits (overflowUnits - 1) 1 = 0x7F7FFFFF ∧
      roundUnits (-1) 255 = 0x80000000 := by decide

/-- V-F32-5, V-F32-4, V-F32-3. -/
theorem test_units :
    units 0x3DCCCCCD = 13421773 * 2 ^ 122 ∧ units 0x00000001 = 1 ∧ units 0x80000000 = 0 := by decide

/-- V-F32-6, V-F32-7. -/
theorem test_classes :
    isFinite 0x7F800000 = false ∧ isNaN 0x7F800000 = false ∧ isNaN 0x7F800001 = true ∧ isNaN 0xFFFFFFFF = true := by decide

/-! ## MAP (95_test_vectors.md section 2.2) -/

/-- V-MAP-4 and V-MAP-9. -/
theorem test_map_exact :
    mapIndex .exact 0x3E800000 0x3F400000 64 64 0 = ⟨16, 16⟩ ∧
    mapIndex .exact 0x3F800000 0x00000000 4294967295 4294967295 0 = ⟨4294967294, 4294967294⟩ := by decide

/-- V-MAP-7 and V-MAP-8: out of range on both sides. -/
theorem test_map_clamps :
    mapIndex .exact 0xBE800000 0xBE800000 64 64 0 = ⟨0, 63⟩ ∧ mapIndex .exact 0x3FC00000 0x3FC00000 64 64 0 = ⟨63, 0⟩ := by
  decide

/-- V-MAP-28 and V-MAP-29. -/
theorem test_map_infinities :
    mapIndex .exact 0x7F800000 0x7F800000 64 64 0 = ⟨63, 0⟩ ∧ mapIndex .exact 0xFF800000 0xFF800000 64 64 0 = ⟨0, 63⟩ := by
  decide

/-- V-MAP-28 and V-MAP-29 once more: R66 holds unchanged under F32STEP (R70). -/
theorem test_map_infinities_stepwise :
    mapIndex .f32step 0x7F800000 0x7F800000 64 64 0 = ⟨63, 0⟩ ∧ mapIndex .f32step 0xFF800000 0xFF800000 64 64 0 = ⟨0, 63⟩ := by
  decide

/-- V-MAP-21 and V-MAP-25: where the readings differ. -/
theorem test_map_readings :
    mapIndex .exact 0x3F555555 0x3F000000 6 1 0 = ⟨4, 0⟩ ∧ mapIndex .f32step 0x3F555555 0x3F000000 6 1 0 = ⟨5, 0⟩ ∧
    mapIndex .exact 0x3F7BFFFF 0x3C800001 64 64 0 = ⟨62, 62⟩ ∧ mapIndex .f32step 0x3F7BFFFF 0x3C800001 64 64 0 = ⟨62, 63⟩ := by
  decide

/-- V-MAP-32: a NaN draws from a set of one member. -/
theorem test_map_nan (k : Nat) : mapIndex .exact 0x7F800001 0x7FFFFFFF 1 1 k = ⟨0, 0⟩ := by
  have hx := indexOf_lt (scaledU .exact 0x7F800001 1) (Config.freeDraw k .column) (dim := 1) (by omega)
  have hy := indexOf_lt (scaledV .exact 0x7FFFFFFF 1) (Config.freeDraw k .row) (dim := 1) (by omega)
  simp only [mapIndex, mapX, mapY, GridIndex.mk.injEq]
  omega

/-! ## Sub-operations (sections 2.3, 2.5, 2.6) -/

/-- V-PK-2, V-PK-3, V-PK-6, V-PK-7. -/
theorem test_pkaddr :
    pkAddr 0 31 = ⟨0, 0, 31⟩ ∧ pkAddr 0 32 = ⟨1, 0, 0⟩ ∧ pkAddr 63 63 = ⟨127, 0, 31⟩ ∧ pkAddr 5 40 = ⟨11, 0, 8⟩ := by decide

/-- V-BX-3 to V-BX-7. -/
theorem test_bitx :
    bitX 0x80000000 31 = true ∧ bitX 0x7FFFFFFF 31 = false ∧ bitX 0xFFFFFFFE 0 = false ∧ bitX 0x100 8 = true ∧
    bitX 0x100 7 = false ∧ bitX 0x100 9 = false := by decide

/-- V-TH-1, V-TH-4, V-TH-5. -/
theorem test_thresh : thresh 0 = false ∧ thresh 256 = true ∧ thresh 0x80000000 = true := by decide

/-- V-SEL-3. -/
theorem test_sel :
    sel true ⟨0x7FC00000, 0x80000000, 0x7F800000, 1⟩ black = ⟨0x7FC00000, 0x80000000, 0x7F800000, 1⟩ := by decide

/-- V-DEN-14 and V-DEN-17: where the readings differ. -/
theorem test_lane_readings :
    densityLane .exact 0 0x3F800000 0xFFFFFFFF 0 = 0x4B808080 ∧ densityLane .f32step 0 0x3F800000 0xFFFFFFFF 0 = 0x4B808081 ∧
    densityLane .exact 0x3F800000 0 256 0 = 0xBB808081 ∧ densityLane .f32step 0x3F800000 0 256 0 = 0xBB808100 := by decide

/-- V-DEN-21 and V-DEN-22: overflow and subnormal results. -/
theorem test_lane_ends :
    densityLane .exact 0 0x7F7FFFFF 255 0 = 0x7F7FFFFF ∧ densityLane .exact 0 0x7F7FFFFF 256 0 = 0x7F800000 ∧
    densityLane .exact 0 1 127 0 = 0 ∧ densityLane .exact 0 1 128 0 = 1 ∧ densityLane .exact 0x80000000 0x3F800000 0 0 = 0 := by
  decide

/-- R48. -/
theorem test_response_word : rspWord dawn = 0x3F0000003ECCCCCD3F6666663F333333 := by decide

/-! ## Whole steps (section 3) -/

/-- P1, lines 5 and 6: the cell (5, 40) and its neighbour. -/
theorem test_packed_alive :
    responseOf (step (asked 0 amber black gridTex 0x3F6A00003F220000)) = some amber := by decide

theorem test_packed_dead :
    responseOf (step (asked 0 amber black gridTex 0x3F6A00003F240000)) = some black := by decide

/-- P2, line 9: a texel far out of contract. -/
theorem test_density_extrapolates :
    responseOf (step (asked 1 dawn dusk densityTex 0x3E0000003F600000)) =
      some ⟨0x431A9A81, 0x43347441, 0x41D0679A, 0xC2FF8182⟩ := by decide

/-- P2, line 3: texel 128. -/
theorem test_density_blends :
    responseOf (step (asked 1 dawn dusk densityTex 0x3F4000003F000000)) =
      some ⟨0x3ECD6700, 0x3F0D26C0, 0x3EB34CE7, 0x3F3FBFC0⟩ := by decide

/-- P3, lines 1 and 9. -/
theorem test_binary_dead : responseOf (step (asked 2 dawn dusk densityTex 0x3F80000000000000)) = some dusk := by decide

theorem test_binary_alive : responseOf (step (asked 2 dawn dusk densityTex 0x3E0000003F600000)) = some dawn := by decide

/-! ## Refusals (section 2.7 and P5) -/

/-- V-OUT-1. -/
theorem test_refused_after_reset :
    refusalOf (step { State.reset with inputs := [.request 0x3F0000003F000000] }) = some .configUnwritten := by decide

/-- V-MODE-4 and V-OUT-9: the reserved mode comes before an unwritten colour and a missing texture. -/
theorem test_refused_reserved :
    refusalOf (step { State.reset with cfg := (CfgRegs.unwritten.put 0 3), inputs := [.request 0] }) = some .reservedMode := by
  decide

/-- V-OUT-2: one colour register unwritten. -/
theorem test_refused_colour :
    refusalOf (step { asked 1 white black densityTex 0 with cfg := { regs 1 white black with cdA := none } }) =
      some .configUnwritten := by decide

/-- V-OUT-3. -/
theorem test_refused_no_texture :
    refusalOf (step { asked 1 white black densityTex 0 with tex := none }) = some .noTexture := by decide

/-- V-OUT-4 and V-OUT-10: a zero dimension, which comes before a NaN draws. -/
theorem test_refused_zero_dimension :
    refusalOf (step (asked 1 white black (.build 0 5 []) 0)) = some .zeroDimension ∧
    refusalOf (step (asked 1 white black (.build 0 0 []) 0x7FC000007FC00000)) = some .zeroDimension := by decide

/-- V-OUT-6 and V-OUT-7: a texture 100 wide holds texel 97 and not texel 113. -/
theorem test_narrow_texture :
    responseOf (step (asked 0 white black (.build 100 1 []) 0x3E8000003F000000)) = some black ∧
    refusalOf (step (asked 0 white black (.build 100 1 []) 0x3E0000003F000000)) = some .texelOutOfBounds := by decide

/-! ## Host moves -/

/-- P5, steps 2 to 4: a write is kept whole, and the others stay unwritten. -/
theorem test_host_write : (CfgRegs.unwritten.put 0 0xFFFFFFFD).get 0 = some 0xFFFFFFFD ∧ (CfgRegs.unwritten.put 0 0xFFFFFFFD).get 5 = none := by
  decide

/-- The listing stays canonical: rising by row, no zero texel, the later of two listings. -/
theorem test_build : Texture.build 2 2 [((1, 1), 7), ((0, 0), 3), ((1, 1), 9), ((0, 0), 0), ((5, 0), 1)] = ⟨2, 2, [((1, 1), 9)]⟩ := by
  decide

/-! ## Witnesses: every obligation's hypotheses can be met -/

/-- The value of a pattern from its units. -/
theorem f32Val_of_units {f : F32} {n : Int} (h : units f = n) : f32Val f = (n : ℚ) / 2 ^ 149 := by rw [f32Val, h]

theorem val_zero : f32Val 0x00000000 = 0 := by rw [f32Val_of_units (n := 0) (by decide)]; norm_num
theorem val_one : f32Val 0x3F800000 = 1 := by rw [f32Val_of_units (n := 2 ^ 149) (by decide)]; norm_num
theorem val_half : f32Val 0x3F000000 = 1 / 2 := by rw [f32Val_of_units (n := 2 ^ 148) (by decide)]; norm_num
theorem val_two : f32Val 0x40000000 = 2 := by rw [f32Val_of_units (n := 2 ^ 150) (by decide)]; norm_num
theorem val_neg_one : f32Val 0xBF800000 = -1 := by rw [f32Val_of_units (n := -2 ^ 149) (by decide)]; norm_num

/-- A state that is ready for all three operations, on the packed shape. -/
def ready : State := asked 0 amber black gridTex 0x3F6A00003F220000

/-- Ready: the statements about PIX.PACKED, and with dimensions that are not zero those about the scalar operations. -/
theorem witness_ready :
    Ready ready amber black gridTex ∧ 128 ≤ gridTex.w.toNat ∧ 1 ≤ gridTex.h.toNat ∧ gridTex.w ≠ 0 ∧ gridTex.h ≠ 0 :=
  ⟨⟨by decide, by decide, by decide⟩, by decide, by decide, by decide, by decide⟩

/-- Ready on a texture too narrow for some cells: both branches of PackedAnswersTheCellsColour (V-OUT-6, V-OUT-7). -/
theorem witness_narrow :
    Ready (asked 0 white black (.build 100 1 []) 0) white black (.build 100 1 []) ∧
    (2 * 48 + 32 / 32 < (Texture.build 100 1 []).w.toNat) ∧ ¬ (2 * 56 + 32 / 32 < (Texture.build 100 1 []).w.toNat) :=
  ⟨⟨by decide, by decide, by decide⟩, by decide, by decide⟩

/-- ModeFieldSelectsTheOperation: a select word and a request for each of its four clauses. -/
theorem witness_mode_fields :
    (0xFFFFFFFC : U32).toNat / 4 = (0x3FFFFFFF : BitVec 30).toNat ∧ (0xFFFFFFFC : U32).toNat % 4 = 0 ∧
    (0xFFFFFFFD : U32).toNat % 4 = 1 ∧ (0xFFFFFFFE : U32).toNat % 4 = 2 ∧ (0xFFFFFFFF : U32).toNat % 4 = 3 ∧
    (0x3F8000003F000000 : Req).toNat = (0x3F000000 : F32).toNat + 2 ^ 32 * (0x3F800000 : F32).toNat := by decide

/-- ReservedCodeIsRefused, RefusalsBeforeAnyTextureAccess (second clause). -/
theorem witness_reserved_code :
    (asked 7 white black gridTex 0).inputs = [.request 0] ∧ (asked 7 white black gridTex 0).cfg.mode = some 7 ∧
    (asked 7 white black gridTex 0).cfg.get 0 = some 7 ∧ (7 : U32).toNat % 4 = 3 := by decide

/-- ReservedBitsAreIgnoredAndKept: two select words, a request that answers under them, and a code that is refused. -/
theorem witness_reserved_bits :
    (asked 2 dawn dusk densityTex 0).inputs = [.request 0] ∧ (2 : U32).toNat % 4 = (0xFFFFFFFE : U32).toNat % 4 ∧
    responseOf (step (asked 2 dawn dusk densityTex 0)) = some dawn ∧
    refusalOf (step (asked 3 dawn dusk densityTex 0)) = some .reservedMode := by decide

/-- StepRunsTheDecodedOperation, each clause. -/
theorem witness_step_decodes :
    ready.inputs = [.request 0x3F6A00003F220000] ∧ ready.cfg.mode = some 0 ∧
    decode 0 0x3F6A00003F220000 = .ok (.pixPacked 0 0x3F220000 0x3F6A0000) ∧
    decodeTableWord 32 1 = some (.pixDensity 0 0 0) ∧ State.reset.inputs = [] := by decide

/-- OperationsOnlyRespond, StepKeepsTextureCanonical: an operation that answers, from a state with the invariant. -/
theorem witness_responds :
    (∃ t, exec (.pixPacked 0 0x3F220000 0x3F6A0000) ready = .next t) ∧ (∃ t, step ready = .next t) ∧ ready.texWf = true := by
  refine ⟨?_, ?_, by decide⟩
  · rcases exec_cases (.pixPacked 0 0x3F220000 0x3F6A0000) ready with ⟨c, h⟩ | ⟨r, h⟩
    · exact ⟨_, h⟩
    · have : refusalOf (exec (.pixPacked 0 0x3F220000 0x3F6A0000) ready) = none := by decide
      rw [h] at this; cases this
  · exact ⟨_, rfl⟩

/-- OnlyHostMovesChangeConfigOrTexture: a host move that changes a register, and one that changes the texture. -/
theorem witness_host_changes :
    (∃ t, step { ready with inputs := [.host (.writeCfg 0 1)] } = .next t ∧ t.cfg ≠ ready.cfg) ∧
    (∃ t, step { ready with inputs := [.host (.attach 1 1 [])] } = .next t ∧ t.tex ≠ ready.tex) :=
  ⟨⟨_, rfl, by decide⟩, ⟨_, rfl, by decide⟩⟩

/-- ResetLeavesNothingConfigured. -/
theorem witness_reset_move :
    ({ ready with inputs := [.host .reset, .request 0] } : State).inputs = .host .reset :: .request 0 :: [] := by decide

/-- HostWriteIsReadBack, AttachedTextureReadsAsListed. -/
theorem witness_host_inputs :
    ({ ready with inputs := [.host (.writeCfg 8 5)] } : State).inputs = .host (.writeCfg 8 5) :: [] ∧
    ({ ready with inputs := [.host (.attach 2 2 [((1, 1), 7)])] } : State).inputs = .host (.attach 2 2 [((1, 1), 7)]) :: [] := by
  decide

/-- UpdatedTexelReadsBack: inside the texture and outside it. -/
theorem witness_texel_update :
    ({ ready with inputs := [.host (.writeTexel 127 0 9)] } : State).inputs = .host (.writeTexel 127 0 9) :: [] ∧
    ready.tex = some gridTex ∧ gridTex.wf = true ∧ gridTex.holds 127 0 = true ∧ gridTex.holds 128 0 = false := by decide

/-- ResetTextureCanonical, CanonicalListingIsUnique. -/
theorem witness_canonical :
    ready.texWf = true ∧ gridTex.data.wf = true ∧ (∀ p, gridTex.data.read p = gridTex.data.read p) :=
  ⟨by decide, by decide, fun _ => rfl⟩

/-- FiniteValuesAreAsTabled: a subnormal, and the two ends of the normal range. -/
theorem witness_exponents :
    expField 0x00000001 = 0 ∧ expField 0x00800000 = 1 ∧ expField 0x7F7FFFFF = 254 := by decide

/-- RoundingIsToNearestTiesToEven: each clause. -/
theorem witness_rounding :
    |(3 / 5 : ℚ)| < 2 ^ 128 - 2 ^ 103 ∧ isFinite 0x3F19999A = true ∧ (2 : ℚ) ^ 128 - 2 ^ 103 ≤ 2 ^ 128 ∧
    -(2 : ℚ) ^ 128 ≤ -(2 ^ 128 - 2 ^ 103) ∧ (0 : ℚ) < 1 / 2 ^ 150 ∧ -(1 / 2 ^ 150) < (0 : ℚ) := by
  refine ⟨?_, by decide, ?_, ?_, ?_, ?_⟩ <;> norm_num

/-- MapperFollowsTheFormula, MapperStaysInTheGrid: the largest and the smallest dimension. -/
theorem witness_dimensions : 1 ≤ 4294967295 ∧ 4294967295 < 2 ^ 32 ∧ 1 ≤ 1 ∧ (1 : Nat) < 2 ^ 32 := by decide

/-- OutOfRangeCoordinatesClamp: each clause, for both readings. -/
theorem witness_out_of_range :
    isFinite 0xBF800000 = true ∧ isFinite 0x40000000 = true ∧ isFinite 0x3F800000 = true ∧ f32Val 0xBF800000 < 0 ∧
    1 ≤ f32Val 0x3F800000 ∧ 1 < f32Val 0x40000000 ∧ f32Val 0x00000000 ≤ 0 ∧ (16777216 : Nat) ≤ 2 ^ 24 := by
  rw [val_neg_one, val_one, val_two, val_zero]
  refine ⟨by decide, by decide, by decide, ?_, ?_, ?_, ?_, by decide⟩ <;> norm_num

/-- CellsAreIntervals: a middle, a first and a last column of a grid 64 wide, for columns closed on the left. -/
theorem witness_cells :
    isFinite 0x3F000000 = true ∧ ((32 : ℕ) : ℚ) / (64 : ℕ) ≤ f32Val 0x3F000000 ∧ f32Val 0x3F000000 < (((32 : ℕ) : ℚ) + 1) / (64 : ℕ) ∧
    f32Val 0x00000000 < 1 / ((64 : ℕ) : ℚ) ∧ (((64 : ℕ) : ℚ) - 1) / (64 : ℕ) ≤ f32Val 0x3F800000 ∧
    1 ≤ 32 ∧ 32 + 2 ≤ 64 ∧ 2 ≤ 64 := by
  rw [val_half, val_zero, val_one]
  refine ⟨by decide, ?_, ?_, ?_, ?_, by decide, by decide, by decide⟩ <;> norm_num

/-- MapperIsMonotone, VerticalAxisIsFlipped. -/
theorem witness_order :
    f32Val 0x3F000000 ≤ f32Val 0x3F800000 ∧ f32Val 0x00000000 = 0 ∧ f32Val 0x3F800000 = 1 ∧ isFinite 0x00000000 = true ∧
    isFinite 0x3F800000 = true := by
  rw [val_half, val_zero, val_one]
  refine ⟨?_, rfl, rfl, by decide, by decide⟩; norm_num

/-- ReadingsAgreeOnCoarseCoordinates. -/
theorem witness_coarse :
    isFinite 0x3F000000 = true ∧ f32Val 0x3F000000 = ((65536 : ℕ) : ℚ) / 2 ^ 17 ∧ 65536 ≤ 2 ^ 17 ∧ 64 ≤ 64 := by
  rw [val_half]
  refine ⟨by decide, ?_, by decide, by decide⟩; norm_num

/-- PackedCellIsItsRowBit: the ends of the range and the word boundary. -/
theorem witness_cell_bounds : 63 ≤ 63 ∧ 31 ≤ 63 ∧ 32 ≤ 63 ∧ (pkAddr 63 32).tx = 127 := by decide

/-- PackedReadsOnlyTheFirst128Texels: a larger texture with other texels elsewhere (V-OUT-8). -/
theorem witness_larger_texture :
    128 ≤ (Texture.build 256 4 [((200, 0), 5), ((0, 3), 0xFFFFFFFF)]).w.toNat ∧
    1 ≤ (Texture.build 256 4 [((200, 0), 5), ((0, 3), 0xFFFFFFFF)]).h.toNat ∧
    ∀ x, x ≤ 127 →
      (Texture.build 128 1 []).data.read (x, 0) = (Texture.build 256 4 [((200, 0), 5), ((0, 3), 0xFFFFFFFF)]).data.read (x, 0) := by
  have hb : (Texture.build 256 4 [((200, 0), 5), ((0, 3), 0xFFFFFFFF)]).data = [((200, 0), 5), ((0, 3), 0xFFFFFFFF)] := by decide
  refine ⟨by decide, by decide, fun x hx => ?_⟩
  rw [hb, show (Texture.build 128 1 []).data = [] from rfl]
  have h200 : ¬ (200 : Nat) = x := by omega
  simp [Memory.read, h200]

/-- DensityEndpointsAreExact, EqualColoursGiveThatColour, BinaryAndDensityAgreeAtTheEnds. -/
theorem witness_finite_colours : FiniteColour dusk ∧ FiniteColour dawn := by
  unfold FiniteColour; decide

theorem witness_ends_texture :
    Ready (asked 1 dawn dusk (.build 2 1 [((1, 0), 255)]) 0) dawn dusk (.build 2 1 [((1, 0), 255)]) ∧
    (Texture.build 2 1 [((1, 0), 255)]).w ≠ 0 ∧ (Texture.build 2 1 [((1, 0), 255)]).h ≠ 0 ∧
    ∀ x y, (Texture.build 2 1 [((1, 0), 255)]).data.read (x, y) = 0 ∨ (Texture.build 2 1 [((1, 0), 255)]).data.read (x, y) = 255 := by
  refine ⟨⟨by decide, by decide, by decide⟩, by decide, by decide, fun x y => ?_⟩
  rw [show (Texture.build 2 1 [((1, 0), 255)]).data = [((1, 0), 255)] by decide]
  simp only [Memory.read, Memory.unlisted]
  split
  · exact .inr rfl
  · exact .inl rfl

/-- DensityIsMonotoneAndUnclamped, DensityMidpointIsOff510th: rising and falling. -/
theorem witness_lane :
    isFinite 0x00000000 = true ∧ isFinite 0x3F800000 = true ∧ f32Val 0x00000000 < f32Val 0x3F800000 ∧
    (255 : U32).toNat ≤ (510 : U32).toNat := by
  rw [val_zero, val_one]
  refine ⟨by decide, by decide, ?_, by decide⟩; norm_num

/-- StepwiseMapperFollowsItsFormula: a finite product; for the clauses of an infinite one, a coordinate of each sign whose product
overflows; and the coordinates that are not finite. -/
theorem witness_step_products :
    isFinite 0x7F7FFFFF = true ∧ isFinite 0xFF7FFFFF = true ∧
    scaledU .f32step 0x3F000000 64 = .fin (32 * oneUnits) ∧ scaledU .f32step 0x7F7FFFFF 2 = .posInf ∧
    scaledU .f32step 0xFF7FFFFF 2 = .negInf ∧ scaledV .f32step 0x7F7FFFFF 2 = .negInf ∧ scaledV .f32step 0xFF7FFFFF 2 = .posInf ∧
    scaledU .f32step posInfPattern 2 = .posInf ∧ scaledU .f32step negInfPattern 2 = .negInf ∧
    scaledV .f32step posInfPattern 2 = .negInf ∧ scaledV .f32step negInfPattern 2 = .posInf ∧ isNaN 0x7F800001 = true := by
  decide

/-- StepwiseLaneFollowsItsFormula: finite all through, a product that overflows, and a difference that overflows, with a
texel that is zero and one that is not. -/
theorem witness_step_lane :
    stepSub (extOf 0x3F800000) (extOf 0x00000000) = .fin oneUnits ∧
    stepMul (normStep 510) (stepSub (extOf 0x7F7FFFFF) (extOf 0x00000000)) = .posInf ∧
    stepSub (extOf 0x7F7FFFFF) (extOf 0xFF7FFFFF) = .posInf ∧ (1 : U32) ≠ 0 ∧
    isNaN (densityLane .f32step 0xFF7FFFFF 0x7F7FFFFF 0 0) = true := by decide

/-- StepwiseEndpointFailsAt255. -/
theorem witness_no_overflow :
    isFinite 0x00000000 = true ∧ isFinite 0x3F800000 = true ∧ |f32Val 0x3F800000 - f32Val 0x00000000| < 2 ^ 128 - 2 ^ 103 := by
  rw [val_zero, val_one]
  refine ⟨by decide, by decide, ?_⟩; norm_num

/-- BinaryIgnoresMagnitude: 7 and 255 in the same place. -/
theorem witness_magnitude :
    (Texture.build 2 1 [((1, 0), 7)]).w = (Texture.build 2 1 [((1, 0), 255)]).w ∧
    ∀ x y, (Texture.build 2 1 [((1, 0), 255)]).data.read (x, y) = 0 ↔ (Texture.build 2 1 [((1, 0), 7)]).data.read (x, y) = 0 := by
  refine ⟨by decide, fun x y => ?_⟩
  rw [show (Texture.build 2 1 [((1, 0), 255)]).data = [((1, 0), 255)] by decide,
    show (Texture.build 2 1 [((1, 0), 7)]).data = [((1, 0), 7)] by decide]
  simp only [Memory.read, Memory.unlisted]
  split <;> simp

/-- RefusalsBeforeAnyTextureAccess, first and third clause: CFG[0] unwritten, and CFG[8] unwritten under a legal mode. -/
theorem witness_unwritten :
    State.reset.cfg.get 0 = none ∧ ({ regs 1 white black with cdA := none } : CfgRegs).get 0 = some 1 ∧ (1 : U32).toNat % 4 ≠ 3 ∧
    ({ regs 1 white black with cdA := none } : CfgRegs).get 8 = none := by decide

/-- RefusalsOfTheTexture: colours written, no texture, a zero dimension under modes 1 and 2, and mode 0 inside and outside the
texture. -/
theorem witness_texture_refusals :
    State.reset.tex = none ∧ (regs 1 white black).ca = some white ∧ (regs 1 white black).cd = some black ∧
    (asked 1 white black (.build 0 5 []) 0).tex = some (.build 0 5 []) ∧
    (Texture.build 0 5 []).w = 0 ∧ (Texture.build 5 0 []).h = 0 ∧ (1 : U32).toNat % 4 = 1 ∧ (2 : U32).toNat % 4 = 2 ∧
    (0 : U32).toNat % 4 = 0 ∧ (Texture.build 100 1 []).h ≠ 0 := by decide

/-- OnlyRequestsAreRefusedAndOnlyForTheFiveReasons. -/
theorem witness_refused : ∃ r, step { State.reset with inputs := [.request 0] } = .refused r := ⟨_, rfl⟩

/-- InvocationsInsideTheContractComplete, RenderPassIsPointwise: both kinds of shape. -/
theorem witness_contract :
    ready.inputs = [.request 0x3F6A00003F220000] ∧ ready.cfg.get 0 = some 0 ∧ (∀ n, ready.cfg.get n ≠ none) ∧
    ready.tex = some gridTex ∧ ShapeFor (modeField 0) gridTex ∧ ShapeFor (modeField 1) densityTex ∧ FiniteColour amber ∧
    FiniteColour black ∧ Drawless 0x3F6A00003F220000 := by
  unfold ShapeFor FiniteColour Drawless; decide

/-- HistoryHasNoInfluence: two states that differ in what was answered before. -/
theorem witness_history :
    ({ ready with outputs := [white], drawCount := 7 } : State).cfg = ready.cfg ∧
    ({ ready with outputs := [white], drawCount := 7 } : State).tex = ready.tex ∧
    ready.cfg.ca = some amber ∧ ready.cfg.cd = some black ∧ responseOf (step ready) = some amber := by decide

end Sys2Proof.Tests
end

/-!
PROOFS. A request's step is its decoded operation (R10, R18, R55).
-/

namespace Sys2Proof.Machine

/-- A table word decodes to what its two words decode to. -/
theorem decodeTableWord_eq_some_iff {nbits w : Nat} {i : Instr} :
    decodeTableWord nbits w = some i ↔ decode (wordsOf nbits w).1 (wordsOf nbits w).2 = .ok i := by
  unfold decodeTableWord
  cases decode (wordsOf nbits w).1 (wordsOf nbits w).2 with
  | ok j => simp
  | error e => simp

theorem step_of_inputs_nil {s : State} (h : s.inputs = []) : step s = .next s := by
  simp only [step, h]

/-- A request whose operation is fetched runs that operation on the state with the request taken. -/
theorem step_of_fetch_ok {s : State} {req : Req} {rest : List Input} {i : Instr}
    (hin : s.inputs = .request req :: rest) (hf : fetch s req = .ok i) : step s = exec i (s.withInputs rest) := by
  simp only [step, hin, hf]

/-- Settles O7: the fetch answers the decoded operation, for the host's own request and for the one `withFetchWord`
issues. -/
theorem stepRunsTheDecodedOperation : Obligations.StepRunsTheDecodedOperation := by
  refine ⟨fun s req rest cfg0 i hin hmode hdec => ?_, fun s nbits w i hdec => ?_, fun s => step_of_inputs_nil⟩
  · exact step_of_fetch_ok hin (fetch_ok.mpr ⟨cfg0, hmode, hdec⟩)
  · exact step_of_fetch_ok (issue_inputs s _ _)
      (fetch_ok.mpr ⟨_, issue_mode s _ _, decodeTableWord_eq_some_iff.mp hdec⟩)

end Sys2Proof.Machine

/-!
PROOFS. `RN32` is round to nearest, ties to even (R8), and keeps binary32 values (R85).

The finite values leave no gap finer than the last place the rounding chose: between two neighbouring whole numbers of last
places there is no binary32 value (`magUnits_not_between`). So the nearest whole number of last places is the nearest value.
-/

namespace Sys2Proof.Machine

/-! ## The fields of a pattern -/

theorem fracField_lt (f : F32) : fracField f < 8388608 := (f.extractLsb' 0 23).isLt

theorem expField_le_of_isFinite {f : F32} (h : isFinite f = true) : expField f ≤ 254 := by
  have hlt : expField f < 256 := (f.extractLsb' 23 8).isLt
  have hne : expField f ≠ 255 := by simpa [isFinite] using h
  omega

/-- The low bit of a pattern is the low bit of its fraction. -/
theorem toNat_mod_two (f : F32) : f.toNat % 2 = fracField f % 2 := by
  simp only [fracField, BitVec.extractLsb'_toNat, Nat.shiftRight_zero, Nat.reducePow]
  omega

theorem toNat_signed_mod_two (f : F32) : (0x80000000 ||| f).toNat % 2 = f.toNat % 2 := by
  rw [toNat_mod_two, toNat_mod_two, fracField_signed]

/-- A pattern is its exponent and fraction, with the sign bit above them (R46). -/
theorem eq_assemble (f : F32) :
    f = if signBit f then 0x80000000 ||| BitVec.ofNat 32 (expField f * 8388608 + fracField f)
      else BitVec.ofNat 32 (expField f * 8388608 + fracField f) := by
  have hf := f.isLt
  have hbody : expField f * 8388608 + fracField f = f.toNat % 2147483648 := by
    simp only [expField, fracField, BitVec.extractLsb'_toNat, Nat.shiftRight_eq_div_pow, Nat.reducePow]
    omega
  have hsign : signBit f = decide (2147483648 ≤ f.toNat) := by
    simp only [signBit, BitVec.getLsbD, Nat.testBit_eq_decide_div_mod_eq, Nat.reducePow, decide_eq_decide]
    omega
  rw [hbody, hsign, ← BitVec.toNat_inj]
  by_cases h : 2147483648 ≤ f.toNat
  · rw [decide_eq_true h, if_pos rfl, BitVec.toNat_or, BitVec.toNat_ofNat, Nat.mod_eq_of_lt (by omega),
      show (0x80000000 : F32).toNat = 2 ^ 31 * 1 from rfl, ← Nat.two_pow_add_eq_or_of_lt (by omega)]
    omega
  · rw [decide_eq_false h, if_neg (by simp), BitVec.toNat_ofNat]
    omega

theorem magUnits_eq_zero_iff (f : F32) : magUnits f = 0 ↔ expField f = 0 ∧ fracField f = 0 := by
  unfold magUnits
  split
  · simp [*]
  · simp [*]

theorem natAbs_units (f : F32) : (units f).natAbs = magUnits f := by
  unfold units
  split
  · simp
  · simp

/-! ## No binary32 value lies between two neighbouring whole numbers of last places -/

/-- A value is a whole number of last places, or it has fewer than 2^23 of them. -/
theorem magUnits_lt_or_dvd (f : F32) (s : Nat) : magUnits f < 8388608 * 2 ^ s ∨ 2 ^ s ∣ magUnits f := by
  have hfrac := fracField_lt f
  unfold magUnits
  split
  · exact .inl (lt_of_lt_of_le hfrac (Nat.le_mul_of_pos_right _ (Nat.two_pow_pos s)))
  · rcases Nat.lt_or_ge (expField f - 1) s with hs | hs
    · left
      calc (2 ^ 23 + fracField f) * 2 ^ (expField f - 1)
          < 16777216 * 2 ^ (expField f - 1) := Nat.mul_lt_mul_of_pos_right (by omega) (Nat.two_pow_pos _)
        _ = 8388608 * 2 ^ (expField f - 1 + 1) := by ring
        _ ≤ 8388608 * 2 ^ s := Nat.mul_le_mul_left _ (Nat.pow_le_pow_right (by omega) hs)
    · exact .inr (Dvd.dvd.mul_left (pow_dvd_pow 2 hs) _)

theorem magUnits_not_between (f : F32) {s q : Nat} (hq : s = 0 ∨ 8388608 ≤ q) :
    magUnits f ≤ q * 2 ^ s ∨ (q + 1) * 2 ^ s ≤ magUnits f := by
  rcases hq with rfl | hq
  · simp only [pow_zero, mul_one]; omega
  · rcases magUnits_lt_or_dvd f s with hlt | ⟨j, hj⟩
    · exact .inl (hlt.le.trans (Nat.mul_le_mul_right _ hq))
    · rw [hj, mul_comm _ j]
      rcases Nat.lt_or_ge q j with hlt | hge
      · exact .inr (Nat.mul_le_mul_right _ hlt)
      · exact .inl (Nat.mul_le_mul_right _ hge)

/-! ## The nearest value -/

/-- The nearest whole number of places of size `b` is as near to `a` as anything outside the place `a` lies in, and where
another is as near it is even. -/
theorem divNearestEven_nearest {a b : Nat} (hb : 0 < b) {y : ℤ}
    (hy : y ≤ ((a / b * b : ℕ) : ℤ) ∨ (((a / b + 1) * b : ℕ) : ℤ) ≤ y) :
    |((divNearestEven a b * b : ℕ) : ℤ) - a| ≤ |y - a| ∧
      (|((divNearestEven a b * b : ℕ) : ℤ) - a| = |y - a| → y ≠ ((divNearestEven a b * b : ℕ) : ℤ) →
        divNearestEven a b % 2 = 0) := by
  have hdm : a / b * b + a % b = a := Nat.div_add_mod' a b
  have hr : a % b < b := Nat.mod_lt a hb
  have hsucc : (a / b + 1) * b = a / b * b + b := Nat.succ_mul _ _
  rw [hsucc] at hy
  simp only [Int.abs_eq_natAbs]
  unfold divNearestEven
  split
  · constructor <;> omega
  · split
    · rw [hsucc]; constructor <;> omega
    · rcases Nat.mod_two_eq_zero_or_one (a / b) with h | h
      · rw [h, Nat.add_zero]; constructor <;> omega
      · rw [h, hsucc]; constructor <;> omega

/-- Below the threshold the rounded magnitude is the nearest value, and where another is as near its pattern is even. The
value compared with carries a sign. -/
theorem roundMagnitude_nearest {a d : Nat} (hd : 0 < d) (h : a < d * overflowUnits) {f : F32} {z : ℤ}
    (hz : z.natAbs = magUnits f) :
    |(magUnits (roundMagnitude a d) : ℤ) * d - a| ≤ |z * d - a| ∧
      (|(magUnits (roundMagnitude a d) : ℤ) * d - a| = |z * d - a| → z ≠ magUnits (roundMagnitude a d) →
        (roundMagnitude a d).toNat % 2 = 0) := by
  obtain ⟨s, k, hk, -, hs, -, hp, hm⟩ := roundMagnitude_spec h
  have hd' : (0 : ℤ) < d := by omega
  have hgap : z * d ≤ ((a / (d * 2 ^ s) * (d * 2 ^ s) : ℕ) : ℤ) ∨
      (((a / (d * 2 ^ s) + 1) * (d * 2 ^ s) : ℕ) : ℤ) ≤ z * d := by
    have hplace (j : Nat) : ((j * (d * 2 ^ s) : ℕ) : ℤ) = ((j * 2 ^ s : ℕ) : ℤ) * d := by push_cast; ring
    rw [hplace, hplace, mul_le_mul_iff_left₀ hd', mul_le_mul_iff_left₀ hd']
    have := magUnits_not_between f hs
    omega
  obtain ⟨hnear, htie⟩ := divNearestEven_nearest (Nat.mul_pos hd (Nat.two_pow_pos s)) hgap
  have hval : (magUnits (roundMagnitude a d) : ℤ) * d = ((divNearestEven a (d * 2 ^ s) * (d * 2 ^ s) : ℕ) : ℤ) := by
    rw [hm, hk]; push_cast; ring
  rw [hval]
  refine ⟨hnear, fun heq hne => ?_⟩
  have heven : k % 2 = 0 := hk ▸ htie heq (by rw [← hval]; exact fun h => hne (mul_right_cancel₀ hd'.ne' h))
  rw [hp, BitVec.toNat_ofNat]
  omega

theorem signBit_roundMagnitude {a d : Nat} (h : a < d * overflowUnits) : signBit (roundMagnitude a d) = false := by
  obtain ⟨s, k, -, -, -, hlt, hp, -⟩ := roundMagnitude_spec h
  rw [hp]
  exact (finite_assemble hlt).2

/-- At most half of the least value above zero rounds to zero: the tie goes to the even pattern. -/
theorem roundMagnitude_of_tiny {a d : Nat} (hd : 0 < d) (h : 2 * a ≤ d) : roundMagnitude a d = 0 := by
  have hov : d * 1 ≤ d * overflowUnits := Nat.mul_le_mul_left _ (by decide)
  have hquot : a / d = 0 := Nat.div_eq_of_lt (by omega)
  have hrem : a % d = a := Nat.mod_eq_of_lt (by omega)
  have hround : divNearestEven a d = 0 := by
    unfold divNearestEven
    rw [hquot, hrem]
    split
    · rfl
    · rw [if_neg (by omega)]
  rw [roundMagnitude, if_neg (by omega), hquot, show ulpShift 0 = 0 by decide, pow_zero, mul_one, hround]
  rfl

theorem roundUnits_of_nonneg {n : Int} (hn : 0 ≤ n) {d : Nat} (hd : 0 < d) :
    roundUnits n d = roundMagnitude n.natAbs d := by
  rcases hn.eq_or_lt with rfl | hpos
  · rw [roundUnits, if_pos rfl, Int.natAbs_zero, roundMagnitude_of_tiny hd (by omega)]
  · rw [roundUnits, if_neg hpos.ne', if_neg hpos.not_gt]

theorem roundUnits_of_neg {n : Int} (hn : n < 0) (d : Nat) :
    roundUnits n d = 0x80000000 ||| roundMagnitude n.natAbs d := by
  rw [roundUnits, if_neg hn.ne, if_pos hn]

theorem units_of_signBit_false {f : F32} (h : signBit f = false) : units f = magUnits f := by
  simp [units, h]

theorem units_signed (f : F32) : units (0x80000000 ||| f) = -magUnits f := by
  rw [units, if_pos (signBit_signed f), magUnits_signed]

/-- The nearest value to a fraction of either sign; a negative one is compared in magnitude. -/
theorem roundUnits_nearest {n : Int} {d : Nat} (hd : 0 < d) (h : n.natAbs < d * overflowUnits) (f : F32) :
    |units (roundUnits n d) * d - n| ≤ |units f * d - n| ∧
      (|units (roundUnits n d) * d - n| = |units f * d - n| → units f ≠ units (roundUnits n d) →
        (roundUnits n d).toNat % 2 = 0) := by
  have hsign := signBit_roundMagnitude h
  rcases lt_or_ge n 0 with hn | hn
  · have hneg (x : ℤ) : |x * d - n| = |-x * d - (n.natAbs : ℤ)| := by
      rw [Int.ofNat_natAbs_of_nonpos hn.le, ← abs_neg]; ring_nf
    obtain ⟨hnear, htie⟩ := roundMagnitude_nearest hd h (z := -units f) (by rw [Int.natAbs_neg, natAbs_units])
    rw [roundUnits_of_neg hn, toNat_signed_mod_two, hneg, hneg (units f), units_signed, neg_neg]
    exact ⟨hnear, fun heq hne => htie heq (by omega)⟩
  · obtain ⟨hnear, htie⟩ := roundMagnitude_nearest hd h (natAbs_units f)
    rw [Int.natAbs_of_nonneg hn] at hnear htie
    rw [roundUnits_of_nonneg hn hd, units_of_signBit_false hsign]
    exact ⟨hnear, htie⟩

/-! ## The rationals of R8 as fractions of units -/

theorem exists_units (q : ℚ) : ∃ (n : Int) (d : Nat), 0 < d ∧ q = (n : ℚ) / d / 2 ^ 149 := by
  refine ⟨q.num * 2 ^ 149, q.den, q.den_pos, ?_⟩
  rw [eq_div_iff (by positivity), Int.cast_mul, mul_div_right_comm, Rat.num_div_den]
  norm_num

theorem overflowUnits_cast : ((2 : ℚ) ^ 128 - 2 ^ 103) * 2 ^ 149 = overflowUnits := by
  norm_num [overflowUnits]

theorem abs_f32Val_sub_units (f : F32) (n : Int) {d : Nat} (hd : 0 < d) :
    |f32Val f - (n : ℚ) / d / 2 ^ 149| = ((|units f * d - n| : ℤ) : ℚ) / (d * 2 ^ 149) := by
  have hd' : (0 : ℚ) < d := by exact_mod_cast hd
  have hval : f32Val f - (n : ℚ) / d / 2 ^ 149 = ((units f * d - n : ℤ) : ℚ) / (d * 2 ^ 149) := by
    rw [f32Val]; push_cast; field_simp
  rw [hval, abs_div, abs_of_pos (by positivity : (0 : ℚ) < d * 2 ^ 149), Int.cast_abs]

/-- Below the threshold `RN32` answers a finite pattern, and none is nearer. -/
theorem rn32_nearest {q : ℚ} (hq : |q| < 2 ^ 128 - 2 ^ 103) :
    isFinite (rn32 q) = true ∧ ∀ f : F32,
      |f32Val (rn32 q) - q| ≤ |f32Val f - q| ∧
      (|f32Val (rn32 q) - q| = |f32Val f - q| → f32Val f ≠ f32Val (rn32 q) → (rn32 q).toNat % 2 = 0) := by
  obtain ⟨n, d, hd, rfl⟩ := exists_units q
  have hd' : (0 : ℚ) < d := by exact_mod_cast hd
  have hlt : n.natAbs < d * overflowUnits := by
    rw [abs_div, abs_div, Nat.abs_cast, abs_of_pos (by positivity : (0 : ℚ) < 2 ^ 149), div_lt_iff₀ (by positivity),
      overflowUnits_cast, div_lt_iff₀' hd', ← Int.cast_abs, Int.abs_eq_natAbs] at hq
    exact_mod_cast hq
  rw [rn32_of_units n hd]
  refine ⟨(roundUnits_spec hlt).1, fun f => ?_⟩
  obtain ⟨hnear, htie⟩ := roundUnits_nearest hd hlt f
  have hpos : (0 : ℚ) < d * 2 ^ 149 := by positivity
  rw [abs_f32Val_sub_units _ n hd, abs_f32Val_sub_units f n hd, div_le_div_iff_of_pos_right hpos, div_left_inj' hpos.ne']
  exact ⟨by exact_mod_cast hnear,
    fun heq hne => htie (by exact_mod_cast heq) (fun hu => hne (by rw [f32Val, f32Val, hu]))⟩

theorem rn32_zero : rn32 0 = 0 := by
  simp [rn32, roundUnits]

/-- The rounding of a negative number is that of its magnitude with the sign bit set. -/
theorem rn32_neg {q : ℚ} (hq : 0 < q) : rn32 (-q) = 0x80000000 ||| rn32 q := by
  have hn : 0 < q.num * 2 ^ 149 := mul_pos (Rat.num_pos.mpr hq) (by positivity)
  rw [rn32, rn32, Rat.num_neg_eq_neg_num, Rat.den_neg_eq_den, Int.neg_mul, roundUnits_of_nonneg hn.le q.den_pos,
    roundUnits_of_neg (by omega), Int.natAbs_neg]

theorem roundMagnitude_of_overflow {a d : Nat} (h : d * overflowUnits ≤ a) : roundMagnitude a d = posInfPattern :=
  if_pos h

theorem rn32_of_overflow {q : ℚ} (hq : 2 ^ 128 - 2 ^ 103 ≤ q) : rn32 q = posInfPattern := by
  obtain ⟨n, d, hd, rfl⟩ := exists_units q
  have hd' : (0 : ℚ) < d := by exact_mod_cast hd
  rw [le_div_iff₀ (by positivity), overflowUnits_cast, le_div_iff₀' hd'] at hq
  have hle : ((d * overflowUnits : ℕ) : ℤ) ≤ n := by exact_mod_cast hq
  have hpos : 0 < d * overflowUnits := Nat.mul_pos hd (by decide)
  rw [rn32_of_units n hd, roundUnits_of_nonneg (by omega) hd, roundMagnitude_of_overflow (by omega)]

theorem rn32_of_tiny {q : ℚ} (hpos : 0 < q) (hq : q ≤ 1 / 2 ^ 150) : rn32 q = 0 := by
  obtain ⟨n, d, hd, rfl⟩ := exists_units q
  have hd' : (0 : ℚ) < d := by exact_mod_cast hd
  rw [div_pos_iff_of_pos_right (by positivity), div_pos_iff_of_pos_right hd'] at hpos
  rw [div_le_iff₀ (by positivity), div_le_iff₀ hd', show (1 : ℚ) / 2 ^ 150 * 2 ^ 149 * d = d / 2 by ring,
    le_div_iff₀' two_pos] at hq
  have hn : 0 < n := by exact_mod_cast hpos
  have hle : 2 * n ≤ d := by exact_mod_cast hq
  rw [rn32_of_units n hd, roundUnits_of_nonneg hn.le hd, roundMagnitude_of_tiny hd (by omega)]

/-- Settles O19: below the threshold by `rn32_nearest`; the negative half of the other clauses is the positive half with the
sign bit set. -/
theorem roundingIsToNearestTiesToEven : Obligations.RoundingIsToNearestTiesToEven := by
  intro q
  refine ⟨fun hq => ?_, rn32_of_overflow, fun hq => ?_, fun hq => ?_, rn32_of_tiny, fun hneg hq => ?_⟩
  · obtain ⟨hfin, hnear⟩ := rn32_nearest hq
    exact ⟨hfin, fun f _ => hnear f⟩
  · have hlarge : 2 ^ 128 - 2 ^ 103 ≤ -q := le_neg_of_le_neg hq
    have hpos : 0 < -q := lt_of_lt_of_le (by norm_num) hlarge
    rw [← neg_neg q, rn32_neg hpos, rn32_of_overflow hlarge]
    decide
  · rw [hq]; exact rn32_zero
  · have hpos : 0 < -q := neg_pos.mpr hneg
    rw [← neg_neg q, rn32_neg hpos, rn32_of_tiny hpos (neg_le_of_neg_le hq)]
    decide

/-! ## A value that is already a binary32 value -/

/-- The last place of a normal number is its exponent's, and of a subnormal number 2^-149. -/
theorem ulpShift_magUnits (f : F32) : ulpShift (magUnits f) = expField f - 1 := by
  have hfrac := fracField_lt f
  unfold magUnits ulpShift
  split
  · next h0 =>
    rw [h0]
    rcases Nat.eq_zero_or_pos (fracField f) with hz | hpos
    · rw [hz]; decide
    · have := (Nat.log2_lt (by omega)).mpr (show fracField f < 2 ^ 23 from hfrac)
      omega
  · have hlog : Nat.log2 ((2 ^ 23 + fracField f) * 2 ^ (expField f - 1)) = 23 + (expField f - 1) := by
      rw [Nat.log2_eq_iff (by positivity), pow_add, show 23 + (expField f - 1) + 1 = 24 + (expField f - 1) by omega, pow_add]
      exact ⟨Nat.mul_le_mul_right _ (by omega), Nat.mul_lt_mul_of_pos_right (by omega) (Nat.two_pow_pos _)⟩
    omega

theorem magUnits_lt_overflowUnits {f : F32} (h : isFinite f = true) : magUnits f < overflowUnits := by
  have hexp := expField_le_of_isFinite h
  have hfrac := fracField_lt f
  have htop : 16777215 * 2 ^ 253 < overflowUnits := by decide
  refine lt_of_le_of_lt ?_ htop
  unfold magUnits
  split
  · omega
  · exact Nat.mul_le_mul (by omega) (Nat.pow_le_pow_right (by omega) (by omega))

theorem divNearestEven_mul_left (k : Nat) {b : Nat} (hb : 0 < b) : divNearestEven (k * b) b = k := by
  rw [divNearestEven, Nat.mul_mod_left, if_pos (by omega), Nat.mul_div_left _ hb]

/-- The magnitude of a finite pattern rounds to the pattern's exponent and fraction. -/
theorem roundMagnitude_magUnits {f : F32} (h : isFinite f = true) :
    roundMagnitude (magUnits f) 1 = BitVec.ofNat 32 (expField f * 8388608 + fracField f) := by
  have hlt := magUnits_lt_overflowUnits h
  rw [roundMagnitude, if_neg (by omega), Nat.div_one, ulpShift_magUnits, Nat.one_mul, magUnits]
  refine congrArg (BitVec.ofNat 32) ?_
  split
  · next h0 => simp [h0, divNearestEven, Nat.mod_one]
  · rw [divNearestEven_mul_left _ (Nat.two_pow_pos _)]
    omega

/-- Settles O20: the value's units round to the pattern itself; only `-0` has no units to keep its sign. -/
theorem roundingKeepsBinary32Values : Obligations.RoundingKeepsBinary32Values := by
  intro f hf
  have hround := roundMagnitude_magUnits hf
  have hbody := eq_assemble f
  rw [f32Val, ← div_one (units f : ℚ), ← Nat.cast_one, rn32_of_units _ Nat.one_pos, plusZero]
  by_cases hsign : signBit f = true
  · rw [if_pos hsign] at hbody
    have hunits : units f = -magUnits f := if_pos hsign
    by_cases hzero : magUnits f = 0
    · obtain ⟨hexp, hfrac⟩ := (magUnits_eq_zero_iff f).mp hzero
      have hf0 : f = 0x80000000 := by rw [hbody, hexp, hfrac]; decide
      rw [if_pos hf0, hunits, hzero]
      rfl
    · have hf0 : f ≠ 0x80000000 := by rintro rfl; exact hzero (by decide)
      rw [if_neg hf0, roundUnits_of_neg (by omega), natAbs_units, hround, ← hbody]
  · rw [if_neg hsign] at hbody
    have hf0 : f ≠ 0x80000000 := by rintro rfl; exact hsign (by decide)
    have hunits : units f = magUnits f := units_of_signBit_false (Bool.eq_false_of_not_eq_true hsign)
    rw [if_neg hf0, roundUnits_of_nonneg (by omega) Nat.one_pos, natAbs_units, hround, ← hbody]

end Sys2Proof.Machine

/-!
PROOFS. The frame of a step (R13, R17, R20, R36): a request only responds, and a host move keeps the texture's listing canonical
and inside the texture.
-/

namespace Sys2Proof.Machine

/-! ## The invariant of the texture's listing -/

/-- The invariant speaks of the attached texture only. -/
theorem texWf_iff (s : State) : s.texWf = true ↔ ∀ t, s.tex = some t → t.wf = true := by
  unfold State.texWf
  cases s.tex <;> simp

theorem texWf_of_tex_eq {s t : State} (h : t.tex = s.tex) (hs : s.texWf = true) : t.texWf = true := by
  rw [texWf_iff] at *
  rwa [h]

/-- A host move keeps the invariant. -/
theorem applyHost_texWf (m : HostMove) {s : State} (hs : s.texWf = true) : (applyHost m s).texWf = true := by
  cases m with
  | writeCfg n v => exact texWf_of_tex_eq rfl hs
  | attach w h texels => exact texture_build_wf w h texels
  | writeTexel x y v =>
    rw [texWf_iff] at *
    intro t' ht'
    obtain ⟨t, ht, rfl⟩ := Option.map_eq_some_iff.mp ht'
    exact texture_write_wf x y v (hs t ht)
  | reset => rfl

/-- Settles O15: of the three kinds of step only a host move writes to the texture. -/
theorem stepKeepsTextureCanonical : Obligations.StepKeepsTextureCanonical := by
  intro s t hs hstep
  rcases step_next_cases hstep with ⟨_, rfl⟩ | ⟨m, rest, _, rfl⟩ | ⟨_, rest, _, c, _, _, rfl⟩
  · exact hs
  · exact applyHost_texWf m (texWf_of_tex_eq rfl hs)
  · exact texWf_of_tex_eq rfl hs

theorem issue_texWf {s : State} (cfg0 : U32) (req : Req) (hs : s.texWf = true) : (s.issue cfg0 req).texWf = true := by
  rw [texWf_iff] at *
  intro t ht
  rw [issue_tex, Option.some_inj] at ht
  subst ht
  cases htex : s.tex with
  | none => exact setUpTexture_wf
  | some t => exact hs t htex

/-- Settles O16: nothing is attached at reset, and the host's set-up attaches at most an empty listing. -/
theorem resetTextureCanonical : Obligations.ResetTextureCanonical :=
  ⟨rfl, fun _ _ _ hs => issue_texWf _ _ hs⟩

/-! ## What an operation and a step leave unchanged -/

/-- Settles O8: an operation that does not refuse is one `State.respond`. -/
theorem operationsOnlyRespond : Obligations.OperationsOnlyRespond := by
  intro i s t hexec
  rcases exec_cases i s with ⟨c, hc⟩ | ⟨r, hr⟩
  · obtain rfl : s.respond c = t := Host.Outcome.next.inj (hc.symm.trans hexec)
    exact ⟨⟨c, respond_outputs s c⟩, respond_drawCount s c, respond_cfg s c, respond_tex s c, respond_inputs s c⟩
  · cases hr.symm.trans hexec

/-- Settles O9: an idle step and a request's response leave both the registers and the texture. -/
theorem onlyHostMovesChangeConfigOrTexture : Obligations.OnlyHostMovesChangeConfigOrTexture := by
  intro s t hstep hchange
  rcases step_next_cases hstep with ⟨_, rfl⟩ | ⟨m, rest, hin, rfl⟩ | ⟨_, rest, _, c, _, _, rfl⟩
  · simp at hchange
  · exact ⟨m, rest, hin, applyHost_outputs m _⟩
  · simp at hchange

end Sys2Proof.Machine

/-!
PROOFS. A canonical listing is determined by what it reads as (R21, R29; log entry 7): its members are exactly the texels that read
as something else than an unlisted one, and a strictly rising list is determined by its members.
-/

namespace Sys2Proof.Machine

/-- The order of the listing on its entries. -/
def entryLt (e e' : Addr × U32) : Prop := addrLt e.1 e'.1 = true

theorem addrLt_irrefl (p : Addr) : addrLt p p = false := by
  simp [addrLt]

theorem entryLt_irrefl : Std.Irrefl entryLt :=
  ⟨fun e => by simp [entryLt, addrLt_irrefl]⟩

theorem entryLt_antisymm : Std.Antisymm entryLt :=
  ⟨fun e _ h h' => (entryLt_irrefl.irrefl e (addrLt_trans h h')).elim⟩

theorem pairwise_entryLt_of_wf {m : Memory} (h : Memory.wf m = true) : List.Pairwise entryLt m := by
  induction m with
  | nil => exact .nil
  | cons head rest ih =>
    obtain ⟨_, hlt, hrest⟩ := wf_cons.mp h
    exact .cons hlt (ih hrest)

/-- The members of a canonical listing are its texels that are not as an unlisted one. -/
theorem mem_iff_read {m : Memory} (h : Memory.wf m = true) (p : Addr) (v : U32) :
    (p, v) ∈ m ↔ m.read p = v ∧ v ≠ Memory.unlisted := by
  induction m with
  | nil => simp +contextual [Memory.read, eq_comm]
  | cons head rest ih =>
    obtain ⟨q, w⟩ := head
    obtain ⟨hw, hlt, hrest⟩ := wf_cons.mp h
    by_cases hqp : q = p
    · subst hqp
      have hnot : (q, v) ∉ rest := fun hmem => by
        have := hlt _ hmem
        simp [addrLt_irrefl] at this
      suffices v = w ↔ w = v ∧ v ≠ Memory.unlisted by simpa [Memory.read, hnot]
      exact ⟨fun h => ⟨h.symm, h ▸ hw⟩, fun h => h.1.symm⟩
    · simp [Memory.read, hqp, Ne.symm hqp, ih hrest]

/-- Settles O17: listings that read the same have the same members. -/
theorem canonicalListingIsUnique : Obligations.CanonicalListingIsUnique := by
  intro m m' hm hm' hread
  have := entryLt_irrefl
  have := entryLt_antisymm
  refine (pairwise_entryLt_of_wf hm).eq_of_mem_iff (pairwise_entryLt_of_wf hm') fun ⟨p, v⟩ => ?_
  rw [mem_iff_read hm, mem_iff_read hm', hread]

end Sys2Proof.Machine

/-!
PROOFS. The configuration registers: a host write and a reset read back, and the colours (R17, R19, R27, R112).
-/

namespace Sys2Proof.Machine

theorem step_of_host {s : State} {m : HostMove} {rest : List Input} (h : s.inputs = .host m :: rest) :
    step s = .next (applyHost m (s.withInputs rest)) := by
  simp only [step, h]

theorem step_of_fetch_error {s : State} {req : Req} {rest : List Input} {r : Refusal}
    (hin : s.inputs = .request req :: rest) (hf : fetch s req = .error r) : step s = .refused r := by
  simp only [step, hin, hf]

@[simp] theorem unwritten_get (n : Fin 9) : CfgRegs.unwritten.get n = none := by
  revert n
  decide

/-- A register reads as written, and the others as before. -/
theorem get_put (c : CfgRegs) (n m : Fin 9) (v : U32) : (c.put n v).get m = if m = n then some v else c.get m := by
  fin_cases n <;> fin_cases m <;> rfl

/-- Settles O10: the reset empties the select register, so the request that follows has none to read. -/
theorem resetLeavesNothingConfigured : Obligations.ResetLeavesNothingConfigured := by
  refine ⟨unwritten_get, rfl, fun s req rest hin => ⟨_, step_of_host hin, unwritten_get, rfl, applyHost_outputs _ _, ?_⟩⟩
  exact step_of_fetch_error (applyHost_inputs _ _) (fetch_error.mpr (.inl ⟨rfl, rfl⟩))

/-- Settles O11: the host's write is one `CfgRegs.put`. -/
theorem hostWriteIsReadBack : Obligations.HostWriteIsReadBack := by
  intro s n v rest hin
  refine ⟨_, step_of_host hin, ?_, fun m hm => ?_, rfl, applyHost_outputs _ _, applyHost_inputs _ _⟩
  · exact (get_put s.cfg n n v).trans (if_pos rfl)
  · exact (get_put s.cfg n m v).trans (if_neg hm)

/-- A colour is there exactly when its four registers are. -/
theorem colourOf_eq_some_iff {r g b a : Option F32} {p : Rgba} :
    colourOf r g b a = some p ↔ r = some p.r ∧ g = some p.g ∧ b = some p.b ∧ a = some p.a := by
  obtain ⟨pr, pg, pb, pa⟩ := p
  cases r <;> cases g <;> cases b <;> cases a <;> simp [colourOf]

/-- Settles O12: both colours are `colourOf` of their four registers in order. -/
theorem coloursAreTheirRegisters : Obligations.ColoursAreTheirRegisters :=
  fun _ _ => ⟨colourOf_eq_some_iff, colourOf_eq_some_iff⟩

end Sys2Proof.Machine

/-!
PROOFS. A request's answer is a function of the registers, the texture and the request (R13, R111, R118), but for its draws: the
draw counter enters only where a coordinate is a NaN (R66) or an interpolated channel is not finite (R89).
-/

namespace Sys2Proof.Machine

/-! ## The answer to a request, apart from the state it is delivered to -/

/-- The response of an operation to its inputs, in the `k`-th invocation. -/
def respondTo (i : Instr) (inp : Inputs) (k : Nat) : Except Refusal Rgba :=
  match i with
  | .pixPacked _ u v => (fetchPacked Config.num u v inp.tex k).map fun alive => sel alive inp.ca inp.cd
  | .pixDensity _ u v => (fetchScalar Config.num u v inp.tex k).map fun value => lerp Config.num inp.cd inp.ca value k
  | .pixBinary _ u v => (fetchScalar Config.num u v inp.tex k).map fun value => sel (thresh value) inp.ca inp.cd

/-- The response of an operation in a state, or why it refuses. -/
def answer (i : Instr) (s : State) : Except Refusal Rgba :=
  (readInputs s).bind fun inp => respondTo i inp s.drawCount

/-- The response to a request in a state, or why it is refused. -/
def answerRequest (req : Req) (s : State) : Except Refusal Rgba :=
  (fetch s req).bind fun i => answer i s

/-- The outcome that an answer makes of the state it is delivered to. -/
def deliver (s : State) (a : Except Refusal Rgba) : Host.Outcome State Fault Refusal :=
  match a with
  | .ok c => .next (s.respond c)
  | .error r => .refused r

@[simp] theorem deliver_ok (s : State) (c : Rgba) : deliver s (.ok c) = .next (s.respond c) := rfl

@[simp] theorem deliver_error (s : State) (r : Refusal) : deliver s (.error r) = .refused r := rfl

/-- An operation delivers its answer: the colour of its two reads, or the refusal of the first read that fails. -/
theorem exec_eq_deliver (i : Instr) (s : State) : exec i s = deliver s (answer i s) := by
  cases i with
  | pixPacked _ u v =>
    rcases pixPacked_cases Config.num u v s with ⟨_, _, hin, hcell, h⟩ | ⟨_, h, hin | ⟨_, hin, hcell⟩⟩ <;>
      exact h.trans (by simp [answer, respondTo, Except.bind, Except.map, *])
  | pixDensity _ u v =>
    rcases pixDensity_cases Config.num u v s with ⟨_, _, hin, htexel, h⟩ | ⟨_, h, hin | ⟨_, hin, htexel⟩⟩ <;>
      exact h.trans (by simp [answer, respondTo, Except.bind, Except.map, *])
  | pixBinary _ u v =>
    rcases pixBinary_cases Config.num u v s with ⟨_, _, hin, htexel, h⟩ | ⟨_, h, hin | ⟨_, hin, htexel⟩⟩ <;>
      exact h.trans (by simp [answer, respondTo, Except.bind, Except.map, *])

/-- A request's step delivers its answer to the state with the request taken. -/
theorem step_eq_deliver {s : State} {req : Req} {rest : List Input} (hin : s.inputs = .request req :: rest) :
    step s = deliver (s.withInputs rest) (answerRequest req s) := by
  unfold answerRequest
  cases hf : fetch s req with
  | error r => exact step_of_fetch_error hin hf
  | ok i => exact (step_of_fetch_ok hin hf).trans (exec_eq_deliver i _)

/-! ## Where nothing is drawn -/

theorem extOf_ne_nan {f : F32} (h : isNaN f = false) : extOf f ≠ .nan := by
  simp only [extOf, h, Bool.false_eq_true, if_false]
  split_ifs <;> simp

theorem scale_ne_nan {e : Ext} (h : e ≠ .nan) (dim : Nat) : e.scale dim ≠ .nan := by
  cases e <;> simp_all [Ext.scale]

theorem flip_ne_nan {e : Ext} (h : e ≠ .nan) : e.flip ≠ .nan := by
  cases e <;> simp_all [Ext.flip]

/-- Only a NaN draws its index (R66). -/
theorem indexOf_of_ne_nan {e : Ext} (h : e ≠ .nan) (dim : Nat) (drawn drawn' : U32) :
    indexOf e dim drawn = indexOf e dim drawn' := by
  cases e with
  | nan => exact absurd rfl h
  | fin n => rfl
  | posInf => rfl
  | negInf => rfl

section Drawless

variable {u v : F32} (hu : isNaN u = false) (hv : isNaN v = false) (k k' : Nat)

include hu hv

theorem mapIndex_drawless (w h : Nat) : mapIndex .exact u v w h k = mapIndex .exact u v w h k' :=
  congrArg₂ GridIndex.mk
    (indexOf_of_ne_nan (scale_ne_nan (extOf_ne_nan hu) w) w _ _)
    (indexOf_of_ne_nan (scale_ne_nan (flip_ne_nan (extOf_ne_nan hv)) h) h _ _)

theorem fetchScalar_drawless (t : Texture) : fetchScalar .exact u v t k = fetchScalar .exact u v t k' := by
  simp only [fetchScalar, mapIndex_drawless hu hv k k']

theorem fetchPacked_drawless (t : Texture) : fetchPacked .exact u v t k = fetchPacked .exact u v t k' := by
  simp only [fetchPacked, packedAddrOf, mapIndex_drawless hu hv k k']

end Drawless

/-- A channel with finite inputs is the formula's and not drawn (R84, R89). -/
theorem densityLane_of_finite {cd ca : F32} (hcd : isFinite cd = true) (hca : isFinite ca = true) (value drawn : U32) :
    densityLane .exact cd ca value drawn = lerpLane cd ca (normValue value) := by
  simp [densityLane, hcd, hca]

theorem lerp_drawless {cd ca : Rgba} (hcd : FiniteColour cd) (hca : FiniteColour ca) (value : U32) (k k' : Nat) :
    lerp .exact cd ca value k = lerp .exact cd ca value k' := by
  obtain ⟨hdr, hdg, hdb, hda⟩ := hcd
  obtain ⟨har, hag, hab, haa⟩ := hca
  simp only [lerp, densityLane_of_finite, *]

/-- The operation of a decoded pair of words, by the code of its select word. -/
theorem decode_ok_cases {cfg0 : U32} {req : Req} {i : Instr} (h : decode cfg0 req = .ok i) :
    i = .pixPacked (reservedField cfg0) (reqU req) (reqV req) ∨
    (modeField cfg0 = 1 ∧ i = .pixDensity (reservedField cfg0) (reqU req) (reqV req)) ∨
    i = .pixBinary (reservedField cfg0) (reqU req) (reqV req) := by
  unfold decode at h
  split at h
  · exact .inl (Except.ok.inj h).symm
  · split at h
    · exact .inr (.inl ⟨‹_›, (Except.ok.inj h).symm⟩)
    · split at h
      · exact .inr (.inr (Except.ok.inj h).symm)
      · cases h

/-- A decoded operation answers the same in every invocation where nothing is drawn. -/
theorem respondTo_drawless {cfg0 : U32} {req : Req} {i : Instr} (hdec : decode cfg0 req = .ok i) (hreq : Drawless req)
    {inp : Inputs} (hfin : modeField cfg0 = 1 → FiniteColour inp.ca ∧ FiniteColour inp.cd) (k k' : Nat) :
    respondTo i inp k = respondTo i inp k' := by
  obtain ⟨hu, hv⟩ := hreq
  rcases decode_ok_cases hdec with rfl | ⟨hmode, rfl⟩ | rfl
  · simp only [respondTo, Config.num, fetchPacked_drawless hu hv k k']
  · obtain ⟨hca, hcd⟩ := hfin hmode
    simp only [respondTo, Config.num, fetchScalar_drawless hu hv k k', lerp_drawless hcd hca _ k k']
  · simp only [respondTo, Config.num, fetchScalar_drawless hu hv k k']

/-- States with the same registers and texture give a request the same answer where nothing is drawn. -/
theorem answerRequest_drawless {s s' : State} {req : Req} {ca cd : Rgba} (hcfg : s.cfg = s'.cfg) (htex : s.tex = s'.tex)
    (hreq : Drawless req) (hca : s.cfg.ca = some ca) (hcd : s.cfg.cd = some cd)
    (hfin : ∀ cfg0, s.cfg.mode = some cfg0 → modeField cfg0 = 1 → FiniteColour ca ∧ FiniteColour cd) :
    answerRequest req s = answerRequest req s' := by
  have hfetch : fetch s req = fetch s' req := by simp only [fetch, hcfg]
  have hread : readInputs s = readInputs s' := readInputs_congr (by rw [hcfg]) (by rw [hcfg]) htex
  unfold answerRequest answer
  rw [← hfetch, ← hread]
  cases hi : fetch s req with
  | error r => rfl
  | ok i => cases hin : readInputs s with
    | error r => rfl
    | ok inp =>
      obtain ⟨cfg0, hmode, hdec⟩ := fetch_ok.mp hi
      obtain ⟨hica, hicd, _⟩ := readInputs_ok.mp hin
      obtain rfl : inp.ca = ca := Option.some_inj.mp (hica.symm.trans hca)
      obtain rfl : inp.cd = cd := Option.some_inj.mp (hicd.symm.trans hcd)
      exact respondTo_drawless hdec hreq (hfin cfg0 hmode) _ _

/-- Settles O48: both steps deliver the same answer. -/
theorem historyHasNoInfluence : Obligations.HistoryHasNoInfluence := by
  intro s s' req rest rest' ca cd hin hin' hcfg htex hreq hca hcd hfin
  rw [step_eq_deliver hin, step_eq_deliver hin', ← answerRequest_drawless hcfg htex hreq hca hcd hfin]
  cases answerRequest req s with
  | error r => simp
  | ok c' =>
    refine ⟨fun c ⟨d, hnext⟩ => ⟨s'.drawCount + 1, ?_⟩, by simp⟩
    have houtputs : s.outputs ++ [c'] = s.outputs ++ [c] := congrArg State.outputs (Host.Outcome.next.inj hnext)
    obtain rfl : c' = c := by simpa using houtputs
    rfl

end Sys2Proof.Machine

/-!
PROOFS. The texture space (R29, R38, R42, R44): a host update of one texel reads back and changes no other, PIX.PACKED depends on
the first 128 texels of row 0 alone, the scalar operations stay inside their texture, and a render pass is one function of the
request.
-/

namespace Sys2Proof.Machine

/-! ## What a listing and a texture read as after a write -/

/-- An address before every listed one is not listed. -/
theorem read_of_addrLt {m : Memory} {p : Addr} (hm : Memory.wf m = true) (hp : ∀ e ∈ m, addrLt p e.1 = true) :
    m.read p = Memory.unlisted := by
  by_contra hne
  have hmem : (p, m.read p) ∈ m := (mem_iff_read hm p _).mpr ⟨rfl, hne⟩
  have hlt : addrLt p p = true := hp _ hmem
  simp [addrLt_irrefl] at hlt

/-- A texel not listed yet, put in front, reads as given, and the others as before. -/
theorem read_push {m : Memory} {p : Addr} (hp : m.read p = Memory.unlisted) (v : U32) (p' : Addr) :
    (Memory.push p v m).read p' = if p' = p then v else m.read p' := by
  unfold Memory.push
  split
  · next hv =>
    split
    · next hpp => rw [hpp, hp, hv]
    · rfl
  · simp only [Memory.read, eq_comm]

/-- A texel reads as written, and the others as before. -/
theorem read_write {m : Memory} (h : Memory.wf m = true) (p : Addr) (v : U32) (p' : Addr) :
    (m.write p v).read p' = if p' = p then v else m.read p' := by
  induction m with
  | nil => exact read_push rfl v p'
  | cons head rest ih =>
    obtain ⟨q, w⟩ := head
    obtain ⟨_, hlt, hrest⟩ := wf_cons.mp h
    simp only [Memory.write]
    split
    · next hqp =>
      subst hqp
      rw [read_push (read_of_addrLt hrest hlt)]
      by_cases hp' : p' = q
      · simp only [hp', if_true]
      · simp only [Memory.read, hp', Ne.symm hp', if_false]
    · next hqp =>
      split
      · next hpq =>
        refine read_push (read_of_addrLt h fun e he => ?_) v p'
        rcases List.mem_cons.mp he with rfl | he
        · exact hpq
        · exact addrLt_trans hpq (hlt e he)
      · simp only [Memory.read, ih hrest]
        by_cases hqp' : q = p'
        · subst hqp'
          simp only [if_true, hqp, if_false]
        · simp only [hqp', if_false]

/-- A texel of the texture reads as written, and the others as before; a write outside the bounds changes nothing. -/
theorem texRead_write {t : Texture} (h : t.wf = true) (x y : Nat) (v : U32) (x' y' : Nat) :
    (t.write x y v).texRead x' y' =
      if (x', y') = (x, y) ∧ t.holds x y = true then some v else t.texRead x' y' := by
  obtain ⟨hdata, _⟩ := (texture_wf_iff t).mp h
  by_cases hb : t.holds x y = true
  · have hwritten : (t.write x y v).data = t.data.write (x, y) v := by simp only [Texture.write, hb, if_true]
    simp only [Texture.texRead, texture_write_holds, hwritten, read_write hdata, hb, and_true]
    by_cases hxy : (x', y') = (x, y)
    · obtain ⟨rfl, rfl⟩ := Prod.mk.inj hxy
      simp only [hb, if_true]
    · simp only [hxy, if_false]
  · simp only [Texture.write, hb, and_false, if_false, Bool.false_eq_true]

/-- Settles O14: the host's update is one `Texture.write`. -/
theorem updatedTexelReadsBack : Obligations.UpdatedTexelReadsBack := by
  intro s x y v rest t hin htex hwf
  refine ⟨t.write x y v, ?_, texture_write_w t x y v, texture_write_h t x y v, texRead_write hwf x y v⟩
  rw [step_of_host hin]
  simp only [applyHost, State.withTex, State.withInputs, htex, Option.map_some]

/-! ## The fetches of a texel -/

/-- On a texture of at least the packed shape the fetch of PIX.PACKED is a bit of one of the first 128 texels of row 0. -/
theorem fetchPacked_of_packedShape (num : Config.Reading) (u v : F32) (k : Nat) :
    ∃ x bit, x ≤ 127 ∧ ∀ t : Texture, 128 ≤ t.w.toNat → 1 ≤ t.h.toNat →
      fetchPacked num u v t k = .ok ((t.data.read (x, 0)).getLsbD bit) := by
  obtain ⟨hx, hy⟩ := packedCell_le num u v k
  refine ⟨2 * mapY num v 64 k + mapX num u 64 k / 32, mapX num u 64 k % 32, by omega, fun t hw hh => ?_⟩
  rw [fetchPacked_eq, if_pos ⟨by omega, hh⟩]

/-- A scalar operation is refused its texel only by a zero dimension. -/
theorem fetchScalar_error {num : Config.Reading} {u v : F32} {t : Texture} {k : Nat} {r : Refusal}
    (h : fetchScalar num u v t k = .error r) : r = .zeroDimension := by
  by_cases hzero : t.w = 0 ∨ t.h = 0
  · rw [fetchScalar_zero num u v k hzero] at h
    exact (Except.error.inj h).symm
  · obtain ⟨hw, hh⟩ := not_or.mp hzero
    obtain ⟨_, _, hok⟩ := fetchScalar_eq num u v k hw hh
    cases hok.symm.trans h

theorem readInputs_ne_texelOutOfBounds (s : State) : readInputs s ≠ .error .texelOutOfBounds := by
  simp [readInputs_error]

/-! ## The operations on their texture -/

/-- An operation in a ready state responds to the two colours and the texture. -/
theorem answer_of_ready {s : State} {ca cd : Rgba} {t : Texture} (h : Ready s ca cd t) (i : Instr) :
    answer i s = respondTo i ⟨ca, cd, t⟩ s.drawCount := by
  have hread : readInputs s = .ok ⟨ca, cd, t⟩ := readInputs_ok.mpr ⟨h.ca_written, h.cd_written, h.attached⟩
  rw [answer, hread]
  rfl

/-- Settles O32: both textures hold the same bit in the cell that is fetched. -/
theorem packedReadsOnlyTheFirst128Texels : Obligations.PackedReadsOnlyTheFirst128Texels := by
  intro s reserved u v ca cd t t' hready hw hh hw' hh' hsame
  have hready' : Ready { s with tex := some t' } ca cd t' := ⟨hready.ca_written, hready.cd_written, rfl⟩
  obtain ⟨x, bit, hx, hfetch⟩ := fetchPacked_of_packedShape Config.num u v s.drawCount
  refine ⟨sel ((t.data.read (x, 0)).getLsbD bit) ca cd, ?_, ?_⟩
  · rw [exec_eq_deliver, answer_of_ready hready, respondTo, hfetch t hw hh]
    rfl
  · rw [exec_eq_deliver, answer_of_ready hready', respondTo, hfetch t' hw' hh', ← hsame x hx]
    rfl

/-- Settles O45: neither of a scalar operation's two reads can fail for a texel outside the texture. -/
theorem scalarOperationsNeverLeaveTheTexture : Obligations.ScalarOperationsNeverLeaveTheTexture := by
  intro s reserved u v
  have hreads : ∀ {r}, (readInputs s = .error r ∨
      ∃ i, readInputs s = .ok i ∧ fetchScalar Config.num u v i.tex s.drawCount = .error r) → r ≠ .texelOutOfBounds := by
    rintro r (hread | ⟨i, _, hfetch⟩) rfl
    · exact readInputs_ne_texelOutOfBounds s hread
    · cases fetchScalar_error hfetch
  constructor
  · intro hexec
    rcases pixDensity_cases Config.num u v s with ⟨_, _, _, _, h⟩ | ⟨r, h, hr⟩
    · cases h.symm.trans hexec
    · exact hreads hr (Host.Outcome.refused.inj (h.symm.trans hexec))
  · intro hexec
    rcases pixBinary_cases Config.num u v s with ⟨_, _, _, _, h⟩ | ⟨r, h, hr⟩
    · cases h.symm.trans hexec
    · exact hreads hr (Host.Outcome.refused.inj (h.symm.trans hexec))

/-! ## A render pass -/

/-- A decoded operation on a texture of its mode's shape responds (R116, R123). -/
theorem respondTo_of_shapeFor {cfg0 : U32} {inp : Inputs} (hshape : ShapeFor (modeField cfg0) inp.tex) (req : Req) (k : Nat) :
    ∃ i c, decode cfg0 req = .ok i ∧ respondTo i inp k = .ok c := by
  rcases hshape with ⟨hmode, hw, hh⟩ | ⟨hmode, hw, hh⟩
  · obtain ⟨_, _, _, hfetch⟩ := fetchPacked_of_packedShape Config.num (reqU req) (reqV req) k
    have hok := hfetch inp.tex (by simp [hw]) (by simp [hh])
    exact ⟨_, _, if_pos hmode, by rw [respondTo, hok]; rfl⟩
  · obtain ⟨_, _, hok⟩ := fetchScalar_eq Config.num (reqU req) (reqV req) k hw hh
    rcases hmode with hmode | hmode
    · exact ⟨.pixDensity (reservedField cfg0) (reqU req) (reqV req), _, by simp [decode, hmode], by rw [respondTo, hok]; rfl⟩
    · exact ⟨.pixBinary (reservedField cfg0) (reqU req) (reqV req), _, by simp [decode, hmode], by rw [respondTo, hok]; rfl⟩

/-- A request inside the host's contract is answered. -/
theorem answerRequest_of_contract {s : State} {cfg0 : U32} {ca cd : Rgba} {t : Texture} (hmode : s.cfg.mode = some cfg0)
    (hready : Ready s ca cd t) (hshape : ShapeFor (modeField cfg0) t) (req : Req) : ∃ c, answerRequest req s = .ok c := by
  obtain ⟨i, c, hdec, hc⟩ := respondTo_of_shapeFor (inp := ⟨ca, cd, t⟩) hshape req s.drawCount
  have hfetch : fetch s req = .ok i := fetch_ok.mpr ⟨cfg0, hmode, hdec⟩
  rw [answerRequest, hfetch]
  exact ⟨c, (answer_of_ready hready i).trans hc⟩

/-- Requests whose answers the registers and the texture fix are answered one after the other. -/
theorem runSteps_requests {f : Req → Rgba} {cfg : CfgRegs} {tex : Option Texture} (rest : List Input) {reqs : List Req}
    (hf : ∀ req ∈ reqs, ∀ s : State, s.cfg = cfg → s.tex = tex → answerRequest req s = .ok (f req))
    {s : State} (hcfg : s.cfg = cfg) (htex : s.tex = tex) (hin : s.inputs = reqs.map Input.request ++ rest) :
    runSteps reqs.length s =
      .next { s with inputs := rest, outputs := s.outputs ++ reqs.map f, drawCount := s.drawCount + reqs.length } := by
  induction reqs generalizing s with
  | nil =>
    obtain rfl : s.inputs = rest := hin
    simp [runSteps]
  | cons req reqs ih =>
    obtain ⟨hfirst, hothers⟩ := List.forall_mem_cons.mp hf
    have hstep : step s = .next ((s.withInputs (reqs.map Input.request ++ rest)).respond (f req)) := by
      rw [step_eq_deliver (rest := reqs.map Input.request ++ rest) hin, hfirst s hcfg htex, deliver_ok]
    simp only [List.length_cons, runSteps, hstep]
    rw [ih hothers (s := (s.withInputs (reqs.map Input.request ++ rest)).respond (f req)) hcfg htex rfl]
    simp [State.respond, State.withInputs, Nat.add_assoc, Nat.add_comm]

/-- Settles O49: the function is the answer in the pass's registers and texture, which nothing drawn enters. -/
theorem renderPassIsPointwise : Obligations.RenderPassIsPointwise := by
  intro s cfg0 ca cd t hmode hready hshape hfin
  choose f hf using answerRequest_of_contract hmode hready hshape
  refine ⟨f, fun reqs rest outputs k hdrawless => ?_⟩
  refine runSteps_requests rest (cfg := s.cfg) (tex := s.tex) (fun req hreq s' hcfg htex => ?_) rfl rfl rfl
  rw [← hf req]
  refine (answerRequest_drawless hcfg.symm htex.symm (hdrawless req hreq) hready.ca_written hready.cd_written ?_).symm
  intro cfg0' hmode'
  obtain rfl : cfg0 = cfg0' := Option.some_inj.mp (hmode.symm.trans hmode')
  exact hfin

end Sys2Proof.Machine

/-!
PROOFS. The words of an operation and of a response (R47 to R49, R55 to R57): decode against encode, the code that selects no
operation, the reserved bits, and the response word's four channels.
-/

namespace Sys2Proof

/-! ## The fields of the two words -/

@[simp] theorem modeField_selectWord (reserved : BitVec 30) (mode : BitVec 2) :
    modeField (selectWord reserved mode) = mode :=
  BitVec.extractLsb'_append_eq_right

@[simp] theorem reservedField_selectWord (reserved : BitVec 30) (mode : BitVec 2) :
    reservedField (selectWord reserved mode) = reserved :=
  BitVec.extractLsb'_append_eq_left

@[simp] theorem selectWord_fields (w : U32) : selectWord (reservedField w) (modeField w) = w :=
  BitVec.extractLsb'_append_extractLsb'

@[simp] theorem reqU_reqWord (u v : F32) : reqU (reqWord u v) = u :=
  BitVec.extractLsb'_append_eq_right

@[simp] theorem reqV_reqWord (u v : F32) : reqV (reqWord u v) = v :=
  BitVec.extractLsb'_append_eq_left

@[simp] theorem reqWord_halves (req : Req) : reqWord (reqU req) (reqV req) = req :=
  BitVec.extractLsb'_append_extractLsb'

/-- The code of a select word, as a number (R49). -/
theorem modeField_eq_iff {w : U32} {mode : BitVec 2} : modeField w = mode ↔ w.toNat % 4 = mode.toNat := by
  rw [← BitVec.toNat_inj, modeField_toNat]

/-! ## Decode against encode -/

/-- The three operations a pair of words may decode to, each with its code (R55). -/
theorem decode_eq_ok_iff {cfg0 : U32} {req : Req} {i : Instr} :
    decode cfg0 req = .ok i ↔
      (modeField cfg0 = 0 ∧ i = .pixPacked (reservedField cfg0) (reqU req) (reqV req)) ∨
      (modeField cfg0 = 1 ∧ i = .pixDensity (reservedField cfg0) (reqU req) (reqV req)) ∨
      (modeField cfg0 = 2 ∧ i = .pixBinary (reservedField cfg0) (reqU req) (reqV req)) := by
  unfold decode
  split_ifs with h0 h1 h2
  · simp [h0, eq_comm]
  · simp [h1, eq_comm]
  · simp [h2, eq_comm]
  · simp only [h0, h1, h2, false_and, or_false]

/-- The code 3, and no other, selects no operation (R56). -/
theorem decode_eq_error_iff {cfg0 : U32} {req : Req} {e : DecodeError} :
    decode cfg0 req = .error e ↔ modeField cfg0 = 3 := by
  cases e
  unfold decode
  split_ifs with h0 h1 h2
  · simp [h0]
  · simp [h1]
  · simp [h2]
  · simp only [true_iff]
    generalize modeField cfg0 = mode at *
    decide +revert

/-- No bit of an operation is lost in its words. -/
theorem decode_encode (i : Instr) : decode (encode i).1 (encode i).2 = .ok i := by
  cases i with
  | pixPacked reserved u v => simp [encode, decode]
  | pixDensity reserved u v => simp [encode, decode]
  | pixBinary reserved u v => simp [encode, decode]

/-- No bit of a pair of words is lost in its operation. -/
theorem encode_of_decode {cfg0 : U32} {req : Req} {i : Instr} (h : decode cfg0 req = .ok i) : encode i = (cfg0, req) := by
  rcases decode_eq_ok_iff.mp h with ⟨hmode, rfl⟩ | ⟨hmode, rfl⟩ | ⟨hmode, rfl⟩ <;>
    rw [encode, ← hmode, selectWord_fields, reqWord_halves]

/-- Settles O1: the fields of each word make up the word. -/
theorem decodeIsInverseOfEncode : Obligations.DecodeIsInverseOfEncode := by
  refine fun cfg0 req i => ⟨encode_of_decode, fun h => ?_⟩
  have hdec := decode_encode i
  rwa [h] at hdec

/-- Settles O2: the numbers given are those of the words' fields. -/
theorem modeFieldSelectsTheOperation : Obligations.ModeFieldSelectsTheOperation := by
  intro cfg0 req reserved u v hreserved hreq
  obtain rfl : reserved = reservedField cfg0 := BitVec.eq_of_toNat_eq (by simp [hreserved])
  obtain rfl : req = reqWord u v := BitVec.eq_of_toNat_eq (by rw [hreq, reqWord_toNat])
  simp only [decode_eq_ok_iff, decode_eq_error_iff, modeField_eq_iff, reqU_reqWord, reqV_reqWord]
  exact ⟨fun h => .inl ⟨h, trivial⟩, fun h => .inr (.inl ⟨h, trivial⟩), fun h => .inr (.inr ⟨h, trivial⟩), id⟩

/-- Settles O4, by evaluation of the six rows. -/
theorem selectWordsDecodeAsTabled : Obligations.SelectWordsDecodeAsTabled := by
  unfold Obligations.SelectWordsDecodeAsTabled
  decide

end Sys2Proof

namespace Sys2Proof.Machine

/-! ## The code that is refused -/

/-- PIX.PACKED is refused its texel only for want of it. -/
theorem fetchPacked_error {num : Config.Reading} {u v : F32} {t : Texture} {k : Nat} {r : Refusal}
    (h : fetchPacked num u v t k = .error r) : r = .texelOutOfBounds := by
  rw [fetchPacked_eq] at h
  split at h
  · cases h
  · exact (Except.error.inj h).symm

theorem error_of_map_error {ε α β : Type} {f : α → β} {x : Except ε α} {e : ε} (h : x.map f = .error e) : x = .error e := by
  cases x with
  | ok a => cases h
  | error e' => exact congrArg Except.error (Except.error.inj h)

/-- The texel's fetch raises other refusals. -/
theorem respondTo_ne_reservedMode (i : Instr) (inp : Inputs) (k : Nat) : respondTo i inp k ≠ .error .reservedMode := by
  intro h
  cases i with
  | pixPacked _ u v => cases fetchPacked_error (error_of_map_error h)
  | pixDensity _ u v => cases fetchScalar_error (error_of_map_error h)
  | pixBinary _ u v => cases fetchScalar_error (error_of_map_error h)

/-- An operation that was selected is not refused as reserved. -/
theorem answer_ne_reservedMode (i : Instr) (s : State) : answer i s ≠ .error .reservedMode := by
  unfold answer
  cases hread : readInputs s with
  | ok inp => exact respondTo_ne_reservedMode i inp s.drawCount
  | error r =>
    rintro ⟨⟩
    simp [readInputs_error] at hread

theorem deliver_eq_refused_iff {s : State} {a : Except Refusal Rgba} {r : Refusal} :
    deliver s a = .refused r ↔ a = .error r := by
  cases a with
  | ok c => simp
  | error r' => simp

/-- A request is refused as reserved exactly if the fetch of its operation is. -/
theorem step_eq_refused_reservedMode_iff {s : State} {req : Req} {rest : List Input} (hin : s.inputs = .request req :: rest) :
    step s = .refused .reservedMode ↔ fetch s req = .error .reservedMode := by
  rw [step_eq_deliver hin, deliver_eq_refused_iff, answerRequest]
  cases hf : fetch s req with
  | error r => simp [Except.bind]
  | ok i => exact iff_of_false (answer_ne_reservedMode i s) nofun

/-- Settles O3: only the fetch refuses a request as reserved, and only for the code. -/
theorem reservedCodeIsRefused : Obligations.ReservedCodeIsRefused := by
  intro s req rest cfg0 hin hmode
  rw [step_eq_refused_reservedMode_iff hin, fetch_error]
  simp [hmode, decode_eq_error_iff, modeField_eq_iff]

/-! ## The reserved bits -/

/-- Select words with one code make a request the same answer (R57). -/
theorem answerRequest_put_mode {s : State} {w w' : U32} (h : modeField w = modeField w') (req : Req) :
    answerRequest req (s.withCfg (s.cfg.put 0 w)) = answerRequest req (s.withCfg (s.cfg.put 0 w')) := by
  have hmode (w : U32) : (s.withCfg (s.cfg.put 0 w)).cfg.mode = some w := rfl
  simp only [answerRequest, fetch, hmode, decode, h]
  split_ifs <;> rfl

/-- Settles O5: the two steps deliver one answer. -/
theorem reservedBitsAreIgnoredAndKept : Obligations.ReservedBitsAreIgnoredAndKept := by
  intro s req rest w w' hin hcode
  have hin' (c : CfgRegs) : (s.withCfg c).inputs = .request req :: rest := hin
  have hmode : modeField w = modeField w' := modeField_eq_iff.mpr (hcode.trans (modeField_toNat w').symm)
  rw [step_eq_deliver (hin' _), step_eq_deliver (hin' _), answerRequest_put_mode hmode]
  refine ⟨?_, ?_, rfl⟩
  · cases answerRequest req (s.withCfg (s.cfg.put 0 w')) with
    | ok c => rintro _ ⟨⟩; rfl
    | error r => exact nofun
  · exact fun r h => deliver_eq_refused_iff.mpr (deliver_eq_refused_iff.mp h)

/-! ## The response word -/

theorem append_toNat {m n : Nat} (hi : BitVec m) (lo : BitVec n) : (hi ++ lo).toNat = lo.toNat + 2 ^ n * hi.toNat := by
  rw [BitVec.toNat_append, ← Nat.shiftLeft_add_eq_or_of_lt lo.isLt, Nat.shiftLeft_eq]
  ring

theorem rspWord_toNat (c : Rgba) :
    (rspWord c).toNat = c.r.toNat + 2 ^ 32 * c.g.toNat + 2 ^ 64 * c.b.toNat + 2 ^ 96 * c.a.toNat := by
  simp only [rspWord, append_toNat]
  ring

theorem rspWord_rspColour (w : BitVec 128) : rspWord (rspColour w) = w := by
  unfold rspWord rspColour
  rw [BitVec.extractLsb'_append_extractLsb'_eq_extractLsb' (start₁ := 64) (len₁ := 32) rfl,
    BitVec.extractLsb'_append_extractLsb'_eq_extractLsb' (start₁ := 32) (len₁ := 32) rfl]
  exact BitVec.extractLsb'_append_extractLsb'

theorem rspColour_rspWord (c : Rgba) : rspColour (rspWord c) = c := by
  have hr : (rspWord c).extractLsb' 0 32 = c.r := BitVec.extractLsb'_append_eq_right
  have hg : (rspWord c).extractLsb' 32 32 = c.g :=
    (BitVec.extractLsb'_append_eq_of_le (by decide)).trans BitVec.extractLsb'_append_eq_right
  have hb : (rspWord c).extractLsb' 64 32 = c.b :=
    (BitVec.extractLsb'_append_eq_of_le (by decide)).trans
      ((BitVec.extractLsb'_append_eq_of_le (by decide)).trans BitVec.extractLsb'_append_eq_right)
  have ha : (rspWord c).extractLsb' 96 32 = c.a :=
    (BitVec.extractLsb'_append_eq_of_le (by decide)).trans
      ((BitVec.extractLsb'_append_eq_of_le (by decide)).trans BitVec.extractLsb'_append_eq_left)
  simp only [rspColour, hr, hg, hb, ha]

/-- Settles O6: the four channels lie end to end, and nothing lies between them. -/
theorem responseWordHoldsFourChannels : Obligations.ResponseWordHoldsFourChannels :=
  ⟨rspWord_toNat, rspColour_rspWord, rspWord_rspColour⟩

end Sys2Proof.Machine

/-!
PROOFS. The value of a finite pattern (R46), and what an attached texture reads as (R44, R59).
-/

namespace Sys2Proof.Machine

/-! ## Values -/

/-- The value is the sign times the magnitude. -/
theorem f32Val_eq (f : F32) : f32Val f = (if signBit f then -1 else 1) * (magUnits f : ℚ) / 2 ^ 149 := by
  unfold f32Val units
  split
  · simp
  · simp

theorem magUnits_of_subnormal {f : F32} (h : expField f = 0) : magUnits f = fracField f :=
  if_pos h

theorem magUnits_of_normal {f : F32} (h : 1 ≤ expField f) :
    magUnits f = (2 ^ 23 + fracField f) * 2 ^ (expField f - 1) :=
  if_neg (by omega)

/-- Settles O18: 2^-149 units of 2^(e - 1) are 2^(e - 150). -/
theorem finiteValuesAreAsTabled : Obligations.FiniteValuesAreAsTabled := by
  refine fun f => ⟨fun hsub => ?_, fun hpos _ => ?_⟩
  · rw [f32Val_eq, magUnits_of_subnormal hsub]
  · have hexp : (2 : ℚ) ^ ((expField f : ℤ) - 150) = 2 ^ (expField f - 1) / 2 ^ 149 := by
      rw [← zpow_natCast, ← zpow_natCast, ← zpow_sub₀ two_ne_zero]
      congr 1
      omega
    rw [f32Val_eq, magUnits_of_normal hpos, hexp]
    push_cast
    ring

/-! ## An attached texture -/

/-- The value an address was listed with last, if it was listed. -/
def lastListed (texels : List (Addr × U32)) (p : Addr) : Option U32 :=
  (texels.reverse.find? fun e => e.1 == p).map fun e => e.2

theorem lastListed_cons (e : Addr × U32) (texels : List (Addr × U32)) (p : Addr) :
    lastListed (e :: texels) p = (lastListed texels p).or (if p = e.1 then some e.2 else none) := by
  simp only [lastListed, List.reverse_cons, List.find?_append, Option.map_or, List.find?_singleton, beq_iff_eq, eq_comm (a := p)]
  split_ifs
  · rfl
  · rfl

/-- Texels written one after the other read as the last listed of each address, and the others as before. -/
theorem texRead_writeAll (texels : List (Addr × U32)) {t : Texture} (hwf : t.wf = true) {x y : Nat} (h : t.holds x y = true) :
    (t.writeAll texels).texRead x y = (lastListed texels (x, y)).or (t.texRead x y) := by
  induction texels generalizing t with
  | nil => rfl
  | cons e rest ih =>
    obtain ⟨⟨px, py⟩, v⟩ := e
    rw [Texture.writeAll, ih (texture_write_wf px py v hwf) (by rwa [texture_write_holds]), texRead_write hwf, lastListed_cons,
      Option.or_assoc]
    by_cases hp : (x, y) = (px, py)
    · obtain ⟨rfl, rfl⟩ := Prod.mk.inj hp
      simp [h]
    · simp [hp]

@[simp] theorem texture_writeAll_w (texels : List (Addr × U32)) (t : Texture) : (t.writeAll texels).w = t.w := by
  induction texels generalizing t with
  | nil => rfl
  | cons e rest ih => exact (ih _).trans (texture_write_w ..)

@[simp] theorem texture_writeAll_h (texels : List (Addr × U32)) (t : Texture) : (t.writeAll texels).h = t.h := by
  induction texels generalizing t with
  | nil => rfl
  | cons e rest ih => exact (ih _).trans (texture_write_h ..)

/-- A texture the host attaches reads as its list, and 0 elsewhere inside its bounds (R59). -/
theorem texRead_build (w h : U32) (texels : List (Addr × U32)) (x y : Nat) :
    (Texture.build w h texels).texRead x y =
      if x < w.toNat ∧ y < h.toNat then some ((lastListed texels (x, y)).getD 0) else none := by
  split
  · next hin =>
    have hblank : (⟨w, h, []⟩ : Texture).holds x y = true := (holds_iff _ x y).mpr hin
    rw [Texture.build, texRead_writeAll texels rfl hblank, texRead_of_holds hblank]
    exact Option.or_some
  · next hout =>
    refine texRead_of_not_holds (Bool.eq_false_iff.mpr fun hin => hout ?_)
    simpa [Texture.build] using (holds_iff _ x y).mp hin

/-- Settles O13: the texture attached is the one built of the list. -/
theorem attachedTextureReadsAsListed : Obligations.AttachedTextureReadsAsListed :=
  fun _ w h texels _ hin =>
    ⟨_, step_of_host hin, texture_writeAll_w texels _, texture_writeAll_h texels _, texRead_build w h texels⟩

end Sys2Proof.Machine

/-!
PROOFS. The Coordinate Mapper in the exact reading (R61 to R69).

A finite coordinate has the clamped floor of its scaled value (`mapX_exact`, `mapY_exact`), so the formula, the cells of R68,
their order and the two ends are facts about the clamped floor of a rational.
-/

namespace Sys2Proof.Machine

/-! ## The clamped floor of a rational -/

section ClampedFloor

variable {q : ℚ} {dim : Nat}

/-- Below one the index is the first. -/
theorem clampIndex_floor_of_lt_one (hq : q < 1) (dim : Nat) : clampIndex ⌊q⌋ dim = 0 := by
  have hfloor : ⌊q⌋ < 1 := Int.floor_lt.mpr (by exact_mod_cast hq)
  unfold clampIndex; omega

/-- From the last index on the index is the last. -/
theorem clampIndex_floor_of_last_le (hq : (dim : ℚ) - 1 ≤ q) : clampIndex ⌊q⌋ dim = dim - 1 := by
  have hfloor : (dim : ℤ) - 1 ≤ ⌊q⌋ := Int.le_floor.mpr (by exact_mod_cast hq)
  unfold clampIndex; omega

theorem clampIndex_floor_mono {p : ℚ} (h : p ≤ q) (dim : Nat) : clampIndex ⌊p⌋ dim ≤ clampIndex ⌊q⌋ dim := by
  have hfloor := Int.floor_mono h
  unfold clampIndex; omega

/-- An index that is neither the first nor the last is the floor itself. -/
theorem clampIndex_floor_eq_iff {c : Nat} (hc : 1 ≤ c) (hdim : c + 2 ≤ dim) :
    clampIndex ⌊q⌋ dim = c ↔ (c : ℚ) ≤ q ∧ q < c + 1 := by
  have hclamp : clampIndex ⌊q⌋ dim = c ↔ ⌊q⌋ = (c : ℤ) := by unfold clampIndex; omega
  rw [hclamp, Int.floor_eq_iff, Int.cast_natCast]

theorem clampIndex_floor_eq_zero_iff (hdim : 2 ≤ dim) : clampIndex ⌊q⌋ dim = 0 ↔ q < 1 := by
  have hclamp : clampIndex ⌊q⌋ dim = 0 ↔ ⌊q⌋ < 1 := by unfold clampIndex; omega
  rw [hclamp, Int.floor_lt, Int.cast_one]

theorem clampIndex_floor_eq_last_iff (hdim : 2 ≤ dim) : clampIndex ⌊q⌋ dim = dim - 1 ↔ (dim : ℚ) - 1 ≤ q := by
  have hclamp : clampIndex ⌊q⌋ dim = dim - 1 ↔ (dim : ℤ) - 1 ≤ ⌊q⌋ := by unfold clampIndex; omega
  rw [hclamp, Int.le_floor]
  push_cast
  rfl

end ClampedFloor

/-! ## MAP on infinities and NaNs, and its bounds -/

@[simp] theorem mapIndex_x (num : Config.Reading) (u v : F32) (w h k : Nat) : (mapIndex num u v w h k).x = mapX num u w k := rfl

@[simp] theorem mapIndex_y (num : Config.Reading) (u v : F32) (w h k : Nat) : (mapIndex num u v w h k).y = mapY num v h k := rfl

theorem mapX_lt (num : Config.Reading) (u : F32) {w : Nat} (hw : 1 ≤ w) (k : Nat) : mapX num u w k < w :=
  indexOf_lt _ _ hw

theorem mapY_lt (num : Config.Reading) (v : F32) {h : Nat} (hh : 1 ≤ h) (k : Nat) : mapY num v h k < h :=
  indexOf_lt _ _ hh

section Infinities

variable (num : Config.Reading) (dim k : Nat)

theorem mapX_posInf : mapX num posInfPattern dim k = dim - 1 := by
  cases num <;> rw [mapX, scaledU, extOf_posInf] <;> rfl

theorem mapX_negInf : mapX num negInfPattern dim k = 0 := by
  cases num <;> rw [mapX, scaledU, extOf_negInf] <;> rfl

theorem mapY_posInf : mapY num posInfPattern dim k = 0 := by
  cases num <;> rw [mapY, scaledV, extOf_posInf] <;> rfl

theorem mapY_negInf : mapY num negInfPattern dim k = dim - 1 := by
  cases num <;> rw [mapY, scaledV, extOf_negInf] <;> rfl

end Infinities

/-- Settles O22: the last stage of MAP stays in bounds, whatever it is given. -/
theorem mapperStaysInTheGrid : Obligations.MapperStaysInTheGrid :=
  fun num u v _ _ k hw hh => ⟨Nat.le_sub_one_of_lt (mapX_lt num u hw k), Nat.le_sub_one_of_lt (mapY_lt num v hh k)⟩

/-! ## MAP in the exact reading -/

theorem mapX_exact {u : F32} (hu : isFinite u = true) (w k : Nat) : mapX .exact u w k = clampIndex ⌊f32Val u * w⌋ w := by
  rw [floor_scaledU, mapX, scaledU, extOf_finite hu]
  rfl

theorem mapY_exact {v : F32} (hv : isFinite v = true) (h k : Nat) :
    mapY .exact v h k = clampIndex ⌊(1 - f32Val v) * h⌋ h := by
  rw [floor_scaledV, mapY, scaledV, extOf_finite hv]
  rfl

/-- Settles O21: the machine's quotient of units is the floor of the formula; the infinities and NaNs as in R66. -/
theorem mapperFollowsTheFormula : Obligations.MapperFollowsTheFormula := by
  intro u v w h k hw _ hh _
  simp only [mapIndex_x, mapIndex_y]
  refine ⟨⟨fun hu => ?_, ?_, ?_, fun _ => mapX_lt _ u hw k⟩, ⟨fun hv => ?_, ?_, ?_, fun _ => mapY_lt _ v hh k⟩⟩
  · rw [mapX_exact hu, clampIndex_cast _ hw]
  · rintro rfl; exact mapX_posInf _ w k
  · rintro rfl; exact mapX_negInf _ w k
  · rw [mapY_exact hv, clampIndex_cast _ hh]
  · rintro rfl; exact mapY_posInf _ h k
  · rintro rfl; exact mapY_negInf _ h k

/-- Settles O25: scaling keeps the order of the coordinates, the flip turns it round, and the clamped floor keeps it. -/
theorem mapperIsMonotone : Obligations.MapperIsMonotone := by
  intro u u' v v' w h k _ _ _ _ hu hu' hv hv'
  simp only [mapIndex_x, mapIndex_y, mapX_exact hu, mapX_exact hu', mapY_exact hv, mapY_exact hv']
  refine ⟨fun hle => clampIndex_floor_mono ?_ w, fun hle => clampIndex_floor_mono ?_ h⟩
  · exact mul_le_mul_of_nonneg_right hle w.cast_nonneg
  · exact mul_le_mul_of_nonneg_right (sub_le_sub_left hle 1) h.cast_nonneg

/-- Settles O26: at each edge of the surface the scaled coordinate is 0 or the whole dimension. -/
theorem verticalAxisIsFlipped : Obligations.VerticalAxisIsFlipped := by
  intro u v w h k _ _ _ _ hu hv
  simp only [mapIndex_x, mapIndex_y, mapX_exact hu, mapY_exact hv]
  refine ⟨fun hbottom => ?_, fun htop => ?_, fun hleft => ?_, fun hright => ?_⟩
  · rw [hbottom, sub_zero, one_mul]; exact clampIndex_floor_of_last_le (by linarith)
  · rw [htop, sub_self, zero_mul]; exact clampIndex_floor_of_lt_one one_pos h
  · rw [hleft, zero_mul]; exact clampIndex_floor_of_lt_one one_pos w
  · rw [hright, one_mul]; exact clampIndex_floor_of_last_le (by linarith)

/-- A cell's bounds on the flipped and scaled coordinate are bounds on the coordinate. -/
theorem le_flip_mul_iff {v c h : ℚ} (hh : 0 < h) : c ≤ (1 - v) * h ↔ v ≤ 1 - c / h := by
  rw [← div_le_iff₀ hh, le_sub_comm]

theorem flip_mul_lt_iff {v c h : ℚ} (hh : 0 < h) : (1 - v) * h < c ↔ 1 - c / h < v := by
  rw [← lt_div_iff₀ hh, sub_lt_comm]

/-- Settles O24: the clamped floor's own intervals, divided by the dimension, and turned round by the flip for the rows. -/
theorem cellsAreIntervals : Obligations.CellsAreIntervals := by
  intro u v w h k _ _ hu hv
  simp only [mapIndex_x, mapIndex_y]
  refine ⟨fun hw => ?_, fun hh => ?_, ?_, ?_⟩
  · have hpos : (0 : ℚ) < w := by exact_mod_cast (by omega : 0 < w)
    simp only [mapX_exact hu, div_le_iff₀ hpos, lt_div_iff₀ hpos]
    exact ⟨fun c => clampIndex_floor_eq_iff, clampIndex_floor_eq_zero_iff hw, clampIndex_floor_eq_last_iff hw⟩
  · have hpos : (0 : ℚ) < h := by exact_mod_cast (by omega : 0 < h)
    have hlast : 1 / (h : ℚ) = 1 - ((h : ℚ) - 1) / h := by field_simp; ring
    rw [mapY_exact hv, ← flip_mul_lt_iff hpos, hlast]
    simp only [← le_flip_mul_iff hpos, ← flip_mul_lt_iff hpos]
    exact ⟨fun c hc hch => (clampIndex_floor_eq_iff hc hch).trans and_comm, clampIndex_floor_eq_zero_iff hh,
      clampIndex_floor_eq_last_iff hh⟩
  · rintro rfl; exact Nat.lt_one_iff.mp (mapX_lt _ u le_rfl k)
  · rintro rfl; exact Nat.lt_one_iff.mp (mapY_lt _ v le_rfl k)

end Sys2Proof.Machine

/-!
PROOFS. The Coordinate Mapper in the stepwise reading (R70), and the clamps of both readings (R65).

A finite coordinate has the index of a rounded product (`mapX_f32step`, `mapY_f32step`). Rounding keeps values that binary32
holds, among them the dimensions up to 2^24, and so it carries nothing past them.
-/

namespace Sys2Proof.Machine

/-! ## Values that binary32 holds, and the rounding beside them -/

/-- A significand of at most 2^24 can be shifted up until it has the leading bit. -/
theorem exists_normal_significand {m : Nat} (hpos : 0 < m) (hm : m ≤ 16777216) :
    ∃ j ≤ 23, 8388608 ≤ m * 2 ^ j ∧ m * 2 ^ j ≤ 16777216 := by
  rcases hm.eq_or_lt with rfl | hlt
  · exact ⟨0, by decide⟩
  · have hlog : Nat.log2 m < 24 := (Nat.log2_lt hpos.ne').mpr hlt
    refine ⟨23 - Nat.log2 m, by omega, ?_, ?_⟩
    · calc 2 ^ 23 = 2 ^ Nat.log2 m * 2 ^ (23 - Nat.log2 m) := by rw [← pow_add]; congr 1; omega
        _ ≤ m * 2 ^ (23 - Nat.log2 m) := Nat.mul_le_mul_right _ (Nat.log2_self_le hpos.ne')
    · calc m * 2 ^ (23 - Nat.log2 m)
          ≤ 2 ^ (Nat.log2 m + 1) * 2 ^ (23 - Nat.log2 m) := Nat.mul_le_mul_right _ Nat.lt_log2_self.le
        _ = 2 ^ 24 := by rw [← pow_add]; congr 1; omega

/-- A whole number of at most 2^24 over a power of two is a binary32 value, where the format's exponent reaches that power. -/
theorem exists_f32Val_eq_fraction {m e : Nat} (hm : m ≤ 16777216) (he : e ≤ 126) :
    ∃ f : F32, isFinite f = true ∧ f32Val f = (m : ℚ) / 2 ^ e := by
  rcases Nat.eq_zero_or_pos m with rfl | hpos
  · exact ⟨0, by decide, by rw [f32Val, show units 0 = 0 by decide]; simp⟩
  · obtain ⟨j, hj, hlo, hhi⟩ := exists_normal_significand hpos hm
    have hlt : (149 - e - j) * 8388608 + m * 2 ^ j < 2139095040 := by omega
    obtain ⟨hfin, hsign⟩ := finite_assemble hlt
    have hplace : (2 : ℚ) ^ 149 = 2 ^ j * 2 ^ (149 - e - j) * 2 ^ e := by
      rw [← pow_add, ← pow_add]; congr 1; omega
    refine ⟨_, hfin, ?_⟩
    rw [f32Val, units_of_signBit_false hsign, magUnits_assemble hhi (.inr hlo) hlt, hplace]
    push_cast
    field_simp

/-- A binary32 value rounds to a pattern of its own value. -/
theorem f32Val_rn32_f32Val {f : F32} (hf : isFinite f = true) : f32Val (rn32 (f32Val f)) = f32Val f := by
  rw [roundingKeepsBinary32Values f hf, plusZero]
  split
  · next hzero => rw [hzero, f32Val, f32Val, show units 0 = units 0x80000000 by decide]
  · rfl

theorem f32Val_rn32_fraction {m e : Nat} (hm : m ≤ 16777216) (he : e ≤ 126) :
    f32Val (rn32 ((m : ℚ) / 2 ^ e)) = (m : ℚ) / 2 ^ e := by
  obtain ⟨f, hf, hval⟩ := exists_f32Val_eq_fraction hm he
  rw [← hval, f32Val_rn32_f32Val hf]

theorem f32Val_rn32_natCast {n : Nat} (hn : n ≤ 16777216) : f32Val (rn32 n) = n := by
  simpa using f32Val_rn32_fraction hn (Nat.zero_le 126)


theorem isFinite_rn32 {q : ℚ} (hq : |q| < 2 ^ 128 - 2 ^ 103) : isFinite (rn32 q) = true :=
  (rn32_nearest hq).1

/-- Rounding does not go below a whole number that binary32 holds. -/
theorem natCast_le_f32Val_rn32 {n : Nat} (hn : n ≤ 16777216) {q : ℚ} (hq : |q| < 2 ^ 128 - 2 ^ 103) (h : (n : ℚ) ≤ q) :
    (n : ℚ) ≤ f32Val (rn32 q) := by
  obtain ⟨hnear, -⟩ := (rn32_nearest hq).2 (rn32 n)
  rw [f32Val_rn32_natCast hn, abs_of_nonpos (a := (n : ℚ) - q) (by linarith)] at hnear
  linarith [neg_abs_le (f32Val (rn32 q) - q)]

theorem f32Val_rn32_nonpos {q : ℚ} (hq : |q| < 2 ^ 128 - 2 ^ 103) (h : q ≤ 0) : f32Val (rn32 q) ≤ 0 := by
  obtain ⟨hnear, -⟩ := (rn32_nearest hq).2 (rn32 (0 : ℕ))
  rw [f32Val_rn32_natCast (Nat.zero_le _), Nat.cast_zero, zero_sub, abs_neg, abs_of_nonpos h] at hnear
  linarith [le_abs_self (f32Val (rn32 q) - q)]

/-- The largest finite value is 2^128 - 2^104. -/
theorem abs_f32Val_le {f : F32} (hf : isFinite f = true) : |f32Val f| ≤ 2 ^ 128 - 2 ^ 104 := by
  have hexp := expField_le_of_isFinite hf
  have hfrac := fracField_lt f
  have hmag : magUnits f ≤ 16777215 * 2 ^ 253 := by
    unfold magUnits
    split
    · exact hfrac.le.trans (by decide)
    · exact Nat.mul_le_mul (by omega) (Nat.pow_le_pow_right (by omega) (by omega))
  have hcast : (magUnits f : ℚ) ≤ 16777215 * 2 ^ 253 := by exact_mod_cast hmag
  rw [f32Val, abs_div, ← Int.cast_abs, Int.abs_eq_natAbs, natAbs_units, abs_of_pos (by positivity), div_le_iff₀ (by positivity)]
  push_cast
  linarith

/-- The rounded flip of a finite coordinate is below the overflow threshold. -/
theorem abs_flip_lt {v : F32} (hv : isFinite v = true) : |1 - f32Val v| < 2 ^ 128 - 2 ^ 103 := by
  have hle := abs_le.mp (abs_f32Val_le hv)
  rw [abs_lt]
  constructor <;> linarith

theorem abs_dim_lt {n : Nat} (hn : n < 2 ^ 32) : |(n : ℚ)| < 2 ^ 128 - 2 ^ 103 := by
  have hcast : (n : ℚ) < 2 ^ 32 := by exact_mod_cast hn
  rw [Nat.abs_cast]
  linarith

/-! ## MAP in the stepwise reading -/

theorem stepOfNat_eq (n : Nat) : stepOfNat n = extOf (rn32 n) := by
  have hunits : (n : ℚ) = ((n * oneUnits : ℤ) : ℚ) / (1 : ℕ) / 2 ^ 149 := by rw [oneUnits]; push_cast; ring
  rw [hunits, rn32_of_units _ Nat.one_pos, stepOfNat]

theorem stepMul_extOf {f g : F32} (hf : isFinite f = true) (hg : isFinite g = true) :
    stepMul (extOf f) (extOf g) = extOf (rn32 (f32Val f * f32Val g)) := by
  have hunits : f32Val f * f32Val g = ((units f * units g : ℤ) : ℚ) / (2 ^ 149 : ℕ) / 2 ^ 149 := by
    rw [f32Val, f32Val]; push_cast; ring
  rw [hunits, rn32_of_units _ (Nat.two_pow_pos 149), extOf_finite hf, extOf_finite hg, stepMul]

theorem flipStep_extOf {v : F32} (hv : isFinite v = true) : (extOf v).flipStep = extOf (rn32 (1 - f32Val v)) := by
  have hunits : 1 - f32Val v = ((oneUnits - units v : ℤ) : ℚ) / (1 : ℕ) / 2 ^ 149 := by
    rw [f32Val, oneUnits]; push_cast; ring
  rw [hunits, rn32_of_units _ Nat.one_pos, extOf_finite hv]
  rfl

/-- A finite value is scaled by the rounded dimension, and the product is rounded (R70). -/
theorem scaleStep_extOf {f : F32} (hf : isFinite f = true) {dim : Nat} (hdim : dim < 2 ^ 32) :
    (extOf f).scaleStep dim = extOf (rn32 (f32Val f * f32Val (rn32 dim))) := by
  rw [← stepMul_extOf hf (isFinite_rn32 (abs_dim_lt hdim)), ← stepOfNat_eq, extOf_finite hf]
  rfl

theorem mapX_f32step {u : F32} (hu : isFinite u = true) {w : Nat} (hw : w < 2 ^ 32) (k : Nat) :
    mapX .f32step u w k = indexOf (extOf (rn32 (f32Val u * f32Val (rn32 w)))) w (Config.freeDraw k .column) := by
  rw [mapX, scaledU, scaleStep_extOf hu hw]

theorem mapY_f32step {v : F32} (hv : isFinite v = true) {h : Nat} (hh : h < 2 ^ 32) (k : Nat) :
    mapY .f32step v h k =
      indexOf (extOf (rn32 (f32Val (rn32 (1 - f32Val v)) * f32Val (rn32 h)))) h (Config.freeDraw k .row) := by
  rw [mapY, scaledV, flipStep_extOf hv, scaleStep_extOf (isFinite_rn32 (abs_flip_lt hv)) hh]

theorem indexOf_extOf {f : F32} (hf : isFinite f = true) (dim : Nat) (drawn : U32) :
    indexOf (extOf f) dim drawn = clampIndex ⌊f32Val f⌋ dim := by
  rw [f32Val, floor_units, extOf_finite hf]
  rfl

/-- The index of a rounded product, by R70's cases: finite, or an infinity that clamps. -/
theorem indexOf_cases {f : F32} {dim : Nat} (hdim : 1 ≤ dim) (drawn : U32) :
    (isFinite f = true → (indexOf (extOf f) dim drawn : ℤ) = max 0 (min ((dim : ℤ) - 1) ⌊f32Val f⌋)) ∧
    (f = posInfPattern → indexOf (extOf f) dim drawn = dim - 1) ∧
    (f = negInfPattern → indexOf (extOf f) dim drawn = 0) := by
  refine ⟨fun hf => ?_, ?_, ?_⟩
  · rw [indexOf_extOf hf, clampIndex_cast _ hdim]
  · rintro rfl; rw [extOf_posInf]; rfl
  · rintro rfl; rw [extOf_negInf]; rfl

/-- Settles O27: the machine's steps on units are the roundings of the formula; the infinities and NaNs as in R66. -/
theorem stepwiseMapperFollowsItsFormula : Obligations.StepwiseMapperFollowsItsFormula := by
  intro u v w h k hw hw' hh hh'
  simp only [mapIndex_x, mapIndex_y]
  refine ⟨⟨?_, ?_, ?_, fun _ => mapX_lt _ u hw k⟩, ⟨?_, ?_, ?_, fun _ => mapY_lt _ v hh k⟩⟩
  · rintro hu fx rfl
    rw [mapX_f32step hu hw']
    exact indexOf_cases hw _
  · rintro rfl; exact mapX_posInf _ w k
  · rintro rfl; exact mapX_negInf _ w k
  · rintro hv fy rfl
    rw [mapY_f32step hv hh']
    exact indexOf_cases hh _
  · rintro rfl; exact mapY_posInf _ h k
  · rintro rfl; exact mapY_negInf _ h k

/-! ## Coordinates out of range (R65) -/

/-- What is not above zero, or overflows below, has the first index. -/
theorem indexOf_rn32_of_nonpos {q : ℚ} (hq : q ≤ 0) (dim : Nat) (drawn : U32) : indexOf (extOf (rn32 q)) dim drawn = 0 := by
  obtain ⟨-, -, hlow, -⟩ := roundingIsToNearestTiesToEven q
  rcases le_or_gt q (-(2 ^ 128 - 2 ^ 103)) with hinf | hfin
  · rw [hlow hinf, extOf_negInf]; rfl
  · have habs : |q| < 2 ^ 128 - 2 ^ 103 := by rw [abs_of_nonpos hq]; linarith
    rw [indexOf_extOf (isFinite_rn32 habs)]
    exact clampIndex_floor_of_lt_one ((f32Val_rn32_nonpos habs hq).trans_lt one_pos) dim

/-- What reaches a dimension that binary32 holds, or overflows above, has the last index. -/
theorem indexOf_rn32_of_dim_le {q : ℚ} {dim : Nat} (hdim : dim ≤ 16777216) (hq : (dim : ℚ) ≤ q) (drawn : U32) :
    indexOf (extOf (rn32 q)) dim drawn = dim - 1 := by
  rcases le_or_gt (2 ^ 128 - 2 ^ 103) q with hinf | hfin
  · rw [rn32_of_overflow hinf, extOf_posInf]; rfl
  · have habs : |q| < 2 ^ 128 - 2 ^ 103 := by rwa [abs_of_nonneg (dim.cast_nonneg.trans hq)]
    rw [indexOf_extOf (isFinite_rn32 habs)]
    exact clampIndex_floor_of_last_le (by linarith [natCast_le_f32Val_rn32 hdim habs hq])

section OutOfRange

variable {num : Config.Reading} {f : F32} {dim : Nat} (hf : isFinite f = true) (hdim : dim < 2 ^ 32)
  (hstep : num = .f32step → dim ≤ 16777216) (k : Nat)

include hf hdim hstep

theorem mapX_of_neg (h : f32Val f < 0) : mapX num f dim k = 0 := by
  have hscaled : f32Val f * dim ≤ 0 := mul_nonpos_of_nonpos_of_nonneg h.le dim.cast_nonneg
  cases num with
  | exact => rw [mapX_exact hf]; exact clampIndex_floor_of_lt_one (hscaled.trans_lt one_pos) dim
  | f32step =>
    rw [mapX_f32step hf hdim, f32Val_rn32_natCast (hstep rfl)]
    exact indexOf_rn32_of_nonpos hscaled dim _

theorem mapX_of_one_le (h : 1 ≤ f32Val f) : mapX num f dim k = dim - 1 := by
  have hscaled : (dim : ℚ) ≤ f32Val f * dim := le_mul_of_one_le_left dim.cast_nonneg h
  cases num with
  | exact => rw [mapX_exact hf]; exact clampIndex_floor_of_last_le (by linarith)
  | f32step =>
    rw [mapX_f32step hf hdim, f32Val_rn32_natCast (hstep rfl)]
    exact indexOf_rn32_of_dim_le (hstep rfl) hscaled _

theorem mapY_of_one_lt (h : 1 < f32Val f) : mapY num f dim k = 0 := by
  have hflip : 1 - f32Val f ≤ 0 := by linarith
  cases num with
  | exact =>
    rw [mapY_exact hf]
    exact clampIndex_floor_of_lt_one ((mul_nonpos_of_nonpos_of_nonneg hflip dim.cast_nonneg).trans_lt one_pos) dim
  | f32step =>
    rw [mapY_f32step hf hdim, f32Val_rn32_natCast (hstep rfl)]
    have hround := f32Val_rn32_nonpos (abs_flip_lt hf) hflip
    exact indexOf_rn32_of_nonpos (mul_nonpos_of_nonpos_of_nonneg hround dim.cast_nonneg) dim _

theorem mapY_of_nonpos (h : f32Val f ≤ 0) : mapY num f dim k = dim - 1 := by
  have hflip : ((1 : ℕ) : ℚ) ≤ 1 - f32Val f := by push_cast; linarith
  cases num with
  | exact =>
    have hscaled : (dim : ℚ) ≤ (1 - f32Val f) * dim := le_mul_of_one_le_left dim.cast_nonneg (by simpa using hflip)
    rw [mapY_exact hf]
    exact clampIndex_floor_of_last_le (by linarith)
  | f32step =>
    have hround := natCast_le_f32Val_rn32 (by decide) (abs_flip_lt hf) hflip
    rw [mapY_f32step hf hdim, f32Val_rn32_natCast (hstep rfl)]
    exact indexOf_rn32_of_dim_le (hstep rfl) (le_mul_of_one_le_left dim.cast_nonneg (by simpa using hround)) _

end OutOfRange

/-- Settles O23: the product lies below zero or reaches the dimension, and rounding does not carry it back. -/
theorem outOfRangeCoordinatesClamp : Obligations.OutOfRangeCoordinatesClamp := by
  intro num u v w h k _ hw _ hh hstep hu hv
  have hstepW (hnum : num = .f32step) : w ≤ 16777216 := (hstep hnum).1
  have hstepH (hnum : num = .f32step) : h ≤ 16777216 := (hstep hnum).2
  exact ⟨mapX_of_neg hu hw hstepW k, mapX_of_one_le hu hw hstepW k, mapY_of_one_lt hv hh hstepH k,
    mapY_of_nonpos hv hh hstepH k⟩

/-! ## Where nothing is rounded (R70) -/

/-- A multiple of 2^-17 in [0, 1] times a dimension of at most 64 is a binary32 value, so the stepwise index of the product is
the exact one. -/
theorem indexOf_rn32_coarse {c dim : Nat} (hc : c ≤ 2 ^ 17) (hdim : dim ≤ 64) (drawn : U32) :
    indexOf (extOf (rn32 ((c : ℚ) / 2 ^ 17 * f32Val (rn32 dim)))) dim drawn = clampIndex ⌊(c : ℚ) / 2 ^ 17 * dim⌋ dim := by
  have hmul : c * dim ≤ 2 ^ 17 * 64 := Nat.mul_le_mul hc hdim
  have hfraction : (c : ℚ) / 2 ^ 17 * dim = ((c * dim : ℕ) : ℚ) / 2 ^ 17 := by push_cast; ring
  obtain ⟨f, hf, hval⟩ := exists_f32Val_eq_fraction (m := c * dim) (e := 17) (by omega) (by decide)
  rw [f32Val_rn32_natCast (by omega), hfraction, ← hval, indexOf_extOf, f32Val_rn32_f32Val hf]
  exact isFinite_rn32 ((abs_f32Val_le hf).trans_lt (by norm_num))

/-- Settles O28: coordinate, flip, dimension and product are all binary32 values. -/
theorem readingsAgreeOnCoarseCoordinates : Obligations.ReadingsAgreeOnCoarseCoordinates := by
  intro u v a b w h k hu hv ha hale hb hble _ hw _ hh
  have hflip : 1 - f32Val v = ((2 ^ 17 - b : ℕ) : ℚ) / 2 ^ 17 := by
    rw [hb, Nat.cast_sub hble]; push_cast; ring
  refine congrArg₂ GridIndex.mk ?_ ?_
  · rw [mapX_f32step hu (by omega), mapX_exact hu, ha, indexOf_rn32_coarse hale hw]
  · rw [mapY_f32step hv (by omega), mapY_exact hv, hflip, f32Val_rn32_fraction (by omega) (by decide),
      indexOf_rn32_coarse (Nat.sub_le _ b) hh]

end Sys2Proof.Machine

/-!
PROOFS. The Bit-Packed Decoder: the bit of a packed row that a cell is (R50, R73, R77), and the colour PIX.PACKED answers for it
(R71).
-/

namespace Sys2Proof.Machine

/-! ## The packed row -/

/-- A row's cells are the bits of its two texels laid end to end, the second above the first (R50). -/
theorem getLsbD_packedRow (m : Memory) (r : Nat) {c : Nat} (hc : c ≤ 63) :
    (m.read (2 * r + c / 32, 0)).getLsbD (c % 32) = (m.read (2 * r + 1, 0) ++ m.read (2 * r, 0)).getLsbD c := by
  rw [BitVec.getLsbD_append]
  by_cases hlow : c < 32
  · rw [if_pos hlow, Nat.div_eq_of_lt hlow, Nat.mod_eq_of_lt hlow, Nat.add_zero]
  · have hword : c / 32 = 1 := by omega
    have hbit : c % 32 = c - 32 := by omega
    rw [if_neg hlow, hword, hbit]

/-- Settles O29: the equations of R73 have their bounds, and name the row's bit. -/
theorem packedCellIsItsRowBit : Obligations.PackedCellIsItsRowBit := by
  intro t r c hr hc
  have htx : 2 * r + c / 32 ≤ 127 := by omega
  have hbit : c % 32 ≤ 31 := by omega
  rw [pkAddr_eq r c hc, bitX_eq]
  exact ⟨htx, rfl, hbit, rfl, rfl, getLsbD_packedRow t.data r hc⟩

/-! ## PIX.PACKED -/

/-- PIX.PACKED in a ready state delivers the colour of the cell's bit, or the refusal of the texel's fetch. -/
theorem exec_pixPacked_of_ready {s : State} {ca cd : Rgba} {t : Texture} (h : Ready s ca cd t) (reserved : BitVec 30)
    (u v : F32) :
    exec (.pixPacked reserved u v) s =
      deliver s ((fetchPacked Config.num u v t s.drawCount).map fun alive => sel alive ca cd) := by
  rw [exec_eq_deliver, answer_of_ready h, respondTo]

/-- Settles O30: the cell is MAP's on the 64 by 64 grid, and the fetch fails only for want of its texel. -/
theorem packedAnswersTheCellsColour : Obligations.PackedAnswersTheCellsColour := by
  intro s reserved u v ca cd t hready
  obtain ⟨hx, hy⟩ := packedCell_le Config.num u v s.drawCount
  obtain ⟨hcolumn, hrow⟩ := mapperFollowsTheFormula u v 64 64 s.drawCount (by decide) (by decide) (by decide) (by decide)
  refine ⟨mapX Config.num u 64 s.drawCount, mapY Config.num v 64 s.drawCount, hcolumn, hrow, hx, hy, ?_⟩
  rw [exec_pixPacked_of_ready hready, fetchPacked_eq]
  split
  · rfl
  · rfl

/-- Settles O31: a texture of at least the packed shape has the texel of every cell. -/
theorem packedCompletesOnThePackedShape : Obligations.PackedCompletesOnThePackedShape := by
  intro s reserved u v ca cd t hready hw hh
  obtain ⟨x, bit, _, hfetch⟩ := fetchPacked_of_packedShape Config.num u v s.drawCount
  refine ⟨sel ((t.data.read (x, 0)).getLsbD bit) ca cd, ite_eq_or_eq _ ca cd, ?_⟩
  rw [exec_pixPacked_of_ready hready, hfetch t hw hh]
  rfl

end Sys2Proof.Machine

/-!
PROOFS. The Density Decoder in the exact reading (R80 to R87), and the order of `RN32` that its monotonicity rests on.

A channel is `RN32` of one rational (`densityLane_exact`), so its ends, its midpoint and the equal-colour case are identities of
that rational.
-/

namespace Sys2Proof.Machine

/-! ## One lane -/

/-- The machine's fraction of units is the formula of R84. -/
theorem lerpLane_eq (cd ca : F32) (value : U32) :
    lerpLane cd ca (normValue value) = rn32 (f32Val cd + (value.toNat : ℚ) / 255 * (f32Val ca - f32Val cd)) := by
  have hunits : f32Val cd + (value.toNat : ℚ) / 255 * (f32Val ca - f32Val cd) =
      ((255 * units cd + value.toNat * (units ca - units cd) : ℤ) : ℚ) / (255 : ℕ) / 2 ^ 149 := by
    rw [f32Val, f32Val]; push_cast; ring
  rw [hunits, rn32_of_units _ (by decide)]
  rfl

theorem densityLane_exact {cd ca : F32} (hcd : isFinite cd = true) (hca : isFinite ca = true) (value drawn : U32) :
    densityLane .exact cd ca value drawn =
      rn32 (f32Val cd + (value.toNat : ℚ) / 255 * (f32Val ca - f32Val cd)) := by
  rw [densityLane_of_finite hcd hca, lerpLane_eq]

theorem densityLane_zero {cd ca : F32} (hcd : isFinite cd = true) (hca : isFinite ca = true) (drawn : U32) :
    densityLane .exact cd ca 0 drawn = plusZero cd := by
  rw [densityLane_exact hcd hca, ← roundingKeepsBinary32Values cd hcd, show (0 : U32).toNat = 0 from rfl]
  congr 1; push_cast; ring

theorem densityLane_255 {cd ca : F32} (hcd : isFinite cd = true) (hca : isFinite ca = true) (drawn : U32) :
    densityLane .exact cd ca 255 drawn = plusZero ca := by
  rw [densityLane_exact hcd hca, ← roundingKeepsBinary32Values ca hca, show (255 : U32).toNat = 255 from rfl]
  congr 1; push_cast; ring

theorem densityLane_self {c : F32} (hc : isFinite c = true) (value drawn : U32) :
    densityLane .exact c c value drawn = plusZero c := by
  rw [densityLane_exact hc hc, ← roundingKeepsBinary32Values c hc]
  congr 1; ring

/-- Settles O34: the formula is the dead channel at 0 and the alive one at 255, and rounding keeps both. -/
theorem densityEndpointsAreExact : Obligations.DensityEndpointsAreExact := by
  intro cd ca k ⟨hdr, hdg, hdb, hda⟩ ⟨har, hag, hab, haa⟩
  simp only [lerp, plusZeroes, densityLane_zero, densityLane_255, and_self, *]

/-- Settles O35: the channels' distance is zero, so no texel moves the formula. -/
theorem equalColoursGiveThatColour : Obligations.EqualColoursGiveThatColour := by
  intro c value k ⟨hr, hg, hb, ha⟩
  simp only [lerp, plusZeroes, densityLane_self, *]

/-- Settles O37: 128/255 is a half and a 510th. -/
theorem densityMidpointIsOff510th : Obligations.DensityMidpointIsOff510th := by
  intro cd ca drawn hcd hca
  rw [densityLane_exact hcd hca, show (128 : U32).toNat = 128 from rfl]
  congr 1; push_cast; ring

/-! ## PIX.DENSITY -/

theorem laneOf_densityLane (cd ca : F32) (value drawn : U32) : LaneOf cd ca value (densityLane .exact cd ca value drawn) :=
  fun hcd hca => densityLane_exact hcd hca value drawn

theorem lerpOf_lerp (cd ca : Rgba) (value : U32) (k : Nat) : LerpOf cd ca value (lerp .exact cd ca value k) :=
  ⟨laneOf_densityLane _ _ _ _, laneOf_densityLane _ _ _ _, laneOf_densityLane _ _ _ _, laneOf_densityLane _ _ _ _⟩

/-- Settles O33: the fetch succeeds at MAP's index, and every lane is the formula's. -/
theorem densityAnswersTheInterpolatedColour : Obligations.DensityAnswersTheInterpolatedColour := by
  intro s reserved u v ca cd t hready hw hh
  obtain ⟨hx, hy, hfetch⟩ := fetchScalar_eq Config.num u v s.drawCount hw hh
  obtain ⟨hcolumn, hrow⟩ := mapperFollowsTheFormula u v t.w.toNat t.h.toNat s.drawCount
    (by omega) t.w.isLt (by omega) t.h.isLt
  refine ⟨_, _, _, hcolumn, hrow, hx, hy, lerpOf_lerp cd ca _ s.drawCount, ?_⟩
  rw [exec_eq_deliver, answer_of_ready hready, respondTo, hfetch]
  rfl

/-! ## The order of patterns and of values -/

/-- A pattern below its sign bit is its exponent and fraction. -/
theorem extractLsb_body (f : F32) : (f.extractLsb' 0 31).toNat = expField f * 8388608 + fracField f := by
  simp only [expField, fracField, BitVec.extractLsb'_toNat, Nat.shiftRight_eq_div_pow, Nat.reducePow]
  omega

/-- The magnitude grows with the exponent and the fraction, from the subnormals up. -/
theorem magUnits_lt_of_body_lt {f g : F32}
    (h : expField f * 8388608 + fracField f < expField g * 8388608 + fracField g) : magUnits f < magUnits g := by
  have hf := fracField_lt f
  have hg := fracField_lt g
  rcases Nat.lt_or_ge (expField f) (expField g) with hexp | hexp
  · calc magUnits f < 2 ^ 23 * 2 ^ (expField g - 1) := ?_
      _ ≤ (2 ^ 23 + fracField g) * 2 ^ (expField g - 1) := Nat.mul_le_mul_right _ (Nat.le_add_right _ _)
      _ = magUnits g := (if_neg (by omega)).symm
    unfold magUnits
    split
    · exact hf.trans_le (Nat.le_mul_of_pos_right _ (Nat.two_pow_pos _))
    · calc (2 ^ 23 + fracField f) * 2 ^ (expField f - 1)
          < 2 ^ 24 * 2 ^ (expField f - 1) := Nat.mul_lt_mul_of_pos_right (by omega) (Nat.two_pow_pos _)
        _ = 2 ^ 23 * 2 ^ (expField f - 1 + 1) := by ring
        _ ≤ 2 ^ 23 * 2 ^ (expField g - 1) := Nat.mul_le_mul_left _ (Nat.pow_le_pow_right two_pos (by omega))
  · have heq : expField f = expField g := by omega
    unfold magUnits
    rw [heq]
    split
    · omega
    · exact Nat.mul_lt_mul_of_pos_right (by omega) (Nat.two_pow_pos _)

/-- The place in the order follows the value, in each of the four combinations of signs; the two zeros share a place. -/
theorem orderKey_le_of_units_le {f g : F32} (h : units f ≤ units g) : orderKey f ≤ orderKey g := by
  have hfg := mt (magUnits_lt_of_body_lt (f := f) (g := g))
  have hgf := mt (magUnits_lt_of_body_lt (f := g) (g := f))
  have hf0 := magUnits_eq_zero_iff f
  have hg0 := magUnits_eq_zero_iff g
  unfold units at h
  unfold orderKey
  rw [extractLsb_body, extractLsb_body]
  split_ifs at h ⊢ <;> omega

/-! ## `RN32` keeps the order -/

theorem f32Val_posInf : f32Val posInfPattern = 2 ^ 128 := by
  rw [f32Val, show units posInfPattern = 2 ^ 149 * 2 ^ 128 by decide]; norm_num

theorem f32Val_negInf : f32Val negInfPattern = -2 ^ 128 := by
  rw [f32Val, show units negInfPattern = -(2 ^ 149 * 2 ^ 128) by decide]; norm_num

/-- `RN32` answers a finite pattern, or the infinity on its argument's side. -/
theorem rn32_cases (q : ℚ) :
    (q ≤ -(2 ^ 128 - 2 ^ 103) ∧ rn32 q = negInfPattern) ∨ |q| < 2 ^ 128 - 2 ^ 103 ∨
      (2 ^ 128 - 2 ^ 103 ≤ q ∧ rn32 q = posInfPattern) := by
  obtain ⟨-, hhigh, hlow, -⟩ := roundingIsToNearestTiesToEven q
  rcases le_or_gt q (-(2 ^ 128 - 2 ^ 103)) with hneg | hneg
  · exact .inl ⟨hneg, hlow hneg⟩
  · rcases le_or_gt (2 ^ 128 - 2 ^ 103) q with hpos | hpos
    · exact .inr (.inr ⟨hpos, hhigh hpos⟩)
    · exact .inr (.inl (abs_lt.mpr ⟨hneg, hpos⟩))

theorem abs_f32Val_rn32_le (q : ℚ) : |f32Val (rn32 q)| ≤ 2 ^ 128 := by
  rcases rn32_cases q with ⟨-, h⟩ | h | ⟨-, h⟩
  · rw [h, f32Val_negInf]; norm_num
  · exact (abs_f32Val_le (isFinite_rn32 h)).trans (by norm_num)
  · rw [h, f32Val_posInf]; norm_num

/-- Two rounded values out of order, each nearest to its own number, would put the greater number on the wrong side of their
midpoint; an infinity stands at its end of the order. -/
theorem f32Val_rn32_mono {p q : ℚ} (h : p ≤ q) : f32Val (rn32 p) ≤ f32Val (rn32 q) := by
  have hpBound := abs_le.mp (abs_f32Val_rn32_le p)
  have hqBound := abs_le.mp (abs_f32Val_rn32_le q)
  rcases rn32_cases p with ⟨-, hp⟩ | hp | ⟨hp, -⟩
  · rw [hp, f32Val_negInf]; exact hqBound.1
  · rcases rn32_cases q with ⟨hq, -⟩ | hq | ⟨-, hq⟩
    · linarith [(abs_lt.mp hp).1]
    · by_contra! hlt
      have hpNear := ((rn32_nearest hp).2 (rn32 q)).1
      have hqNear := ((rn32_nearest hq).2 (rn32 p)).1
      have hpMid : f32Val (rn32 p) + f32Val (rn32 q) ≤ 2 * p := by nlinarith [sq_le_sq.mpr hpNear]
      have hqMid : 2 * q ≤ f32Val (rn32 p) + f32Val (rn32 q) := by nlinarith [sq_le_sq.mpr hqNear]
      obtain rfl : p = q := by linarith
      exact lt_irrefl _ hlt
    · rw [hq, f32Val_posInf]; exact hpBound.2
  · rcases rn32_cases q with ⟨hq, -⟩ | hq | ⟨-, hq⟩
    · linarith
    · linarith [(abs_lt.mp hq).2]
    · rw [hq, f32Val_posInf]; exact hpBound.2

theorem units_le_of_f32Val_le {f g : F32} (h : f32Val f ≤ f32Val g) : units f ≤ units g := by
  rw [f32Val, f32Val, div_le_div_iff_of_pos_right (by positivity)] at h
  exact_mod_cast h

theorem orderKey_rn32_mono {p q : ℚ} (h : p ≤ q) : orderKey (rn32 p) ≤ orderKey (rn32 q) :=
  orderKey_le_of_units_le (units_le_of_f32Val_le (f32Val_rn32_mono h))

/-- Settles O36: the formula is affine in the texel with the colours' difference as its slope, and rounding keeps the order. -/
theorem densityIsMonotoneAndUnclamped : Obligations.DensityIsMonotoneAndUnclamped := by
  intro cd ca drawn value value' hcd hca
  have hfraction (hle : value.toNat ≤ value'.toNat) : (value.toNat : ℚ) / 255 ≤ (value'.toNat : ℚ) / 255 := by
    gcongr
  rw [densityLane_exact hcd hca, densityLane_exact hcd hca]
  refine ⟨by congr 1; ring, fun hle hlt => ?_, fun hle hlt => ?_⟩
  · exact orderKey_rn32_mono (add_le_add_right (mul_le_mul_of_nonneg_right (hfraction hle) (sub_nonneg.mpr hlt.le)) _)
  · exact orderKey_rn32_mono (add_le_add_right (mul_le_mul_of_nonpos_right (hfraction hle) (sub_nonpos.mpr hlt.le)) _)

end Sys2Proof.Machine

/-!
PROOFS. The Density Decoder in the stepwise reading (R88): each of the machine's steps is `RN32` of the formula's step, and what
an infinite difference or product makes of the rest.
-/

namespace Sys2Proof.Machine

/-! ## The steps of the formula -/

/-- The sum of two values is a whole number of units. -/
theorem rn32_add (f g : F32) : rn32 (f32Val f + f32Val g) = roundUnits (units f + units g) 1 := by
  have hunits : f32Val f + f32Val g = ((units f + units g : ℤ) : ℚ) / (1 : ℕ) / 2 ^ 149 := by
    rw [f32Val, f32Val]; push_cast; ring
  rw [hunits, rn32_of_units _ Nat.one_pos]

theorem stepAdd_extOf {f g : F32} (hf : isFinite f = true) (hg : isFinite g = true) :
    stepAdd (extOf f) (extOf g) = extOf (rn32 (f32Val f + f32Val g)) := by
  rw [rn32_add, extOf_finite hf, extOf_finite hg, stepAdd]

theorem stepSub_extOf {f g : F32} (hf : isFinite f = true) (hg : isFinite g = true) :
    stepSub (extOf f) (extOf g) = extOf (rn32 (f32Val f - f32Val g)) := by
  have hunits : f32Val f - f32Val g = ((units f + -units g : ℤ) : ℚ) / (1 : ℕ) / 2 ^ 149 := by
    rw [f32Val, f32Val]; push_cast; ring
  rw [hunits, rn32_of_units _ Nat.one_pos, extOf_finite hf, extOf_finite hg]
  rfl

theorem isFinite_rn32_natCast (value : U32) : isFinite (rn32 value.toNat) = true :=
  isFinite_rn32 (abs_dim_lt value.isLt)

/-- NORM divides a finite converted texel. Its definition is opened as a function and not at a texel, where the kernel would
evaluate the rounding of a texel that is not known. -/
theorem normStep_of_fin {value : U32} {n : Int} (h : stepOfNat value.toNat = .fin n) :
    normStep value = extOf (roundUnits n 255) := by
  generalize hdef : normStep = norm
  delta normStep at hdef
  subst hdef
  simp only [h]

theorem normStep_eq (value : U32) : normStep value = extOf (rn32 (f32Val (rn32 value.toNat) / 255)) := by
  have hfin : stepOfNat value.toNat = .fin (units (rn32 value.toNat)) := by
    rw [stepOfNat_eq, extOf_finite (isFinite_rn32_natCast value)]
  have hunits : f32Val (rn32 value.toNat) / 255 = (units (rn32 value.toNat) : ℚ) / (255 : ℕ) / 2 ^ 149 := by
    rw [f32Val]; push_cast; ring
  rw [normStep_of_fin hfin, hunits, rn32_of_units _ (by decide)]

theorem isFinite_normStep (value : U32) : isFinite (rn32 (f32Val (rn32 value.toNat) / 255)) = true := by
  have hle := abs_f32Val_le (isFinite_rn32_natCast value)
  refine isFinite_rn32 ?_
  rw [abs_div, abs_of_pos (by norm_num : (0 : ℚ) < 255), div_lt_iff₀ (by norm_num)]
  linarith

/-- A texel that is not zero is normalised to a value above zero. -/
theorem units_normStep_pos {value : U32} (h : value ≠ 0) : 0 < units (rn32 (f32Val (rn32 value.toNat) / 255)) := by
  have hpos : 1 ≤ value.toNat := Nat.one_le_iff_ne_zero.mpr fun h0 => h (BitVec.eq_of_toNat_eq h0)
  have hone : ((1 : ℕ) : ℚ) ≤ f32Val (rn32 value.toNat) :=
    natCast_le_f32Val_rn32 (by decide) (abs_dim_lt value.isLt) (by exact_mod_cast hpos)
  have hmono : f32Val (rn32 (((1 : ℕ) : ℚ) / 2 ^ 8)) ≤ f32Val (rn32 (f32Val (rn32 value.toNat) / 255)) :=
    f32Val_rn32_mono (by rw [div_le_div_iff₀ (by norm_num) (by norm_num)]; linarith)
  rw [f32Val_rn32_fraction (by decide) (by decide), f32Val, le_div_iff₀ (by positivity)] at hmono
  have : (0 : ℚ) < units (rn32 (f32Val (rn32 value.toNat) / 255)) := lt_of_lt_of_le (by norm_num) hmono
  exact_mod_cast this

/-- One lane under F32STEP, with NORM and the difference as roundings. -/
theorem densityLane_f32step {cd ca : F32} (hcd : isFinite cd = true) (hca : isFinite ca = true) (value drawn : U32) :
    densityLane .f32step cd ca value drawn =
      (stepAdd (extOf cd) (stepMul (extOf (rn32 (f32Val (rn32 value.toNat) / 255)))
        (extOf (rn32 (f32Val ca - f32Val cd))))).toF32 drawn := by
  simp only [densityLane, hcd, hca, Bool.and_self, if_true, lerpLaneStep, normStep_eq, stepSub_extOf hca hcd]

/-! ## The pattern of a result -/

/-- What is not finite of the roundings is an infinity. -/
theorem rn32_of_not_finite {q : ℚ} (h : isFinite (rn32 q) = false) : rn32 q = posInfPattern ∨ rn32 q = negInfPattern := by
  rcases rn32_cases q with ⟨-, hinf⟩ | hfin | ⟨-, hinf⟩
  · exact .inr hinf
  · exact absurd (isFinite_rn32 hfin) (by simp [h])
  · exact .inl hinf

/-- A rounded value is delivered as its own pattern, but for `-0`. -/
theorem toF32_extOf_rn32 (q : ℚ) (drawn : U32) : (extOf (rn32 q)).toF32 drawn = plusZero (rn32 q) := by
  rcases hfin : isFinite (rn32 q) with _ | _
  · rcases rn32_of_not_finite hfin with h | h
    · rw [h, extOf_posInf]; rfl
    · rw [h, extOf_negInf]; rfl
  · rw [← roundingKeepsBinary32Values _ hfin, f32Val, ← div_one (units (rn32 q) : ℚ), ← Nat.cast_one,
      rn32_of_units _ Nat.one_pos, extOf_finite hfin]
    rfl

/-- A whole number of units is not rounded to `-0`: the least values of either sign are nearer, unless it is zero. -/
theorem roundUnits_one_ne_negZero (n : Int) : roundUnits n 1 ≠ 0x80000000 := by
  intro hzero
  rcases Nat.lt_or_ge n.natAbs (1 * overflowUnits) with hlt | hge
  · have hup := (roundUnits_nearest Nat.one_pos hlt 0x00000001).1
    have hdown := (roundUnits_nearest Nat.one_pos hlt 0x80000001).1
    rw [hzero, show units 0x80000000 = 0 by decide, show units 0x00000001 = 1 by decide] at hup
    rw [hzero, show units 0x80000000 = 0 by decide, show units 0x80000001 = -1 by decide] at hdown
    simp only [Int.abs_eq_natAbs] at hup hdown
    obtain rfl : n = 0 := by omega
    exact absurd hzero (by decide)
  · rcases lt_or_ge n 0 with hn | hn
    · rw [roundUnits_of_neg hn, roundMagnitude_of_overflow hge] at hzero
      exact absurd hzero (by decide)
    · rw [roundUnits_of_nonneg hn Nat.one_pos, roundMagnitude_of_overflow hge] at hzero
      exact absurd hzero (by decide)

theorem rn32_add_ne_negZero (f g : F32) : rn32 (f32Val f + f32Val g) ≠ 0x80000000 := by
  rw [rn32_add]
  exact roundUnits_one_ne_negZero _

theorem isNaN_nanFrom (drawn : U32) : isNaN (nanFrom drawn) = true := by
  unfold nanFrom
  split
  · assumption
  · decide

/-! ## Infinities -/

/-- A finite number added to an infinity leaves it. -/
theorem stepAdd_inf {f g : F32} (hf : isFinite f = true) (hg : g = posInfPattern ∨ g = negInfPattern) (drawn : U32) :
    (stepAdd (extOf f) (extOf g)).toF32 drawn = g := by
  rw [extOf_finite hf]
  rcases hg with rfl | rfl
  · rw [extOf_posInf]; rfl
  · rw [extOf_negInf]; rfl

/-- A factor above zero leaves an infinity. -/
theorem stepMul_inf_of_pos {f g : F32} (hf : isFinite f = true) (hpos : 0 < units f)
    (hg : g = posInfPattern ∨ g = negInfPattern) : stepMul (extOf f) (extOf g) = extOf g := by
  rw [extOf_finite hf]
  rcases hg with rfl | rfl
  · rw [extOf_posInf, stepMul, infTimes, if_neg (by omega), if_pos hpos]
  · rw [extOf_negInf, stepMul, infTimes, if_neg (by omega), if_neg (by omega)]

/-- Zero times an infinity is a NaN (log entry 13). -/
theorem stepMul_zero_inf {g : F32} (hg : g = posInfPattern ∨ g = negInfPattern) : stepMul (extOf 0) (extOf g) = .nan := by
  rcases hg with rfl | rfl
  · decide
  · decide

/-! ## The stepwise lane -/

theorem f32Val_zero : f32Val 0 = 0 := by
  rw [f32Val, show units 0 = 0 by decide, Int.cast_zero, zero_div]

theorem normStep_zero : rn32 (f32Val (rn32 (0 : U32).toNat) / 255) = 0 := by
  rw [show (0 : U32).toNat = 0 from rfl, Nat.cast_zero, rn32_zero, f32Val_zero, zero_div, rn32_zero]

/-- Settles O38: the sum of finite steps is never `-0`, and an infinity meets only a finite dead channel and the texel's factor,
which is zero only for the zero texel. -/
theorem stepwiseLaneFollowsItsFormula : Obligations.StepwiseLaneFollowsItsFormula := by
  rintro cd ca value drawn t d p hcd hca rfl rfl rfl
  rw [densityLane_f32step hcd hca]
  have ht := isFinite_normStep value
  refine ⟨fun hd hp => ?_, fun hd hp => ?_, fun hd hvalue => ?_, ?_⟩
  · rw [stepMul_extOf ht hd, stepAdd_extOf hcd hp, toF32_extOf_rn32, plusZero, if_neg (rn32_add_ne_negZero _ _)]
  · rw [stepMul_extOf ht hd, stepAdd_inf hcd (rn32_of_not_finite hp)]
  · have hinf := rn32_of_not_finite hd
    rw [stepMul_inf_of_pos ht (units_normStep_pos hvalue) hinf, stepAdd_inf hcd hinf]
  · rintro hd rfl
    rw [normStep_zero, stepMul_zero_inf (rn32_of_not_finite hd), extOf_finite hcd]
    exact isNaN_nanFrom drawn

/-- Settles O39: the product is zero, and the sum the dead channel; at 255 the rule's own colours, evaluated. -/
theorem stepwiseEndpointFailsAt255 : Obligations.StepwiseEndpointFailsAt255 := by
  refine ⟨fun cd ca drawn hcd hca hdiff => ?_, fun drawn => rfl⟩
  obtain ⟨hsum, -⟩ := stepwiseLaneFollowsItsFormula cd ca 0 drawn _ _ _ hcd hca rfl rfl rfl
  rw [normStep_zero, f32Val_zero, zero_mul, rn32_zero, f32Val_zero, add_zero] at hsum
  rw [hsum (isFinite_rn32 hdiff) (by decide), roundingKeepsBinary32Values cd hcd]

end Sys2Proof.Machine

/-!
PROOFS. The Binary Decoder (R90 to R93): the fetched texel chooses a colour by whether it is zero, and at texels 0 and 255 the
Density Decoder interpolates to the same colour.
-/

namespace Sys2Proof.Machine

/-- THRESH and SEL together (R91): the dead colour for a texel of zero, else the alive one. -/
theorem sel_thresh (value : U32) (ca cd : Rgba) : sel (thresh value) ca cd = if value = 0 then cd else ca := by
  rw [sel, ← if_congr (thresh_eq_false_iff value) rfl rfl]
  cases thresh value with
  | false => rfl
  | true => rfl

/-- PIX.BINARY in a ready state delivers the colour that the fetched texel chooses. -/
theorem exec_pixBinary_of_fetch {s : State} {ca cd : Rgba} {t : Texture} {u v : F32} {value : U32} (h : Ready s ca cd t)
    (hfetch : fetchScalar Config.num u v t s.drawCount = .ok value) (reserved : BitVec 30) :
    exec (.pixBinary reserved u v) s = .next (s.respond (if value = 0 then cd else ca)) := by
  rw [exec_eq_deliver, answer_of_ready h, respondTo, hfetch, ← sel_thresh]
  rfl

/-- PIX.DENSITY in a ready state delivers the colour interpolated by the fetched texel. -/
theorem exec_pixDensity_of_fetch {s : State} {ca cd : Rgba} {t : Texture} {u v : F32} {value : U32} (h : Ready s ca cd t)
    (hfetch : fetchScalar Config.num u v t s.drawCount = .ok value) (reserved : BitVec 30) :
    exec (.pixDensity reserved u v) s = .next (s.respond (lerp Config.num cd ca value s.drawCount)) := by
  rw [exec_eq_deliver, answer_of_ready h, respondTo, hfetch]
  rfl

/-- Settles O40: the fetch succeeds at MAP's index. -/
theorem binaryAnswersByNonzero : Obligations.BinaryAnswersByNonzero := by
  intro s reserved u v ca cd t hready hw hh
  obtain ⟨hx, hy, hfetch⟩ := fetchScalar_eq Config.num u v s.drawCount hw hh
  obtain ⟨hcolumn, hrow⟩ := mapperFollowsTheFormula u v t.w.toNat t.h.toNat s.drawCount
    (by omega) t.w.isLt (by omega) t.h.isLt
  exact ⟨_, _, hcolumn, hrow, hx, hy, exec_pixBinary_of_fetch hready hfetch reserved⟩

/-- Settles O41: textures of one shape are read at one index, where both texels are zero or neither is. -/
theorem binaryIgnoresMagnitude : Obligations.BinaryIgnoresMagnitude := by
  intro s reserved u v ca cd t t' hready hw hh hw' hh' hzero
  have hready' : Ready { s with tex := some t' } ca cd t' := ⟨hready.ca_written, hready.cd_written, rfl⟩
  obtain ⟨-, -, hfetch⟩ := fetchScalar_eq Config.num u v s.drawCount hw hh
  obtain ⟨-, -, hfetch'⟩ := fetchScalar_eq Config.num u v s.drawCount (hw'.trans_ne hw) (hh'.trans_ne hh)
  refine ⟨_, (ite_eq_or_eq _ cd ca).symm, exec_pixBinary_of_fetch hready hfetch reserved, ?_⟩
  rw [exec_pixBinary_of_fetch hready' hfetch' reserved, hw', hh', ← if_congr (hzero _ _) rfl rfl]
  rfl

/-- At the ends of the density range LERP gives the colour that PIX.BINARY chooses (R85, R93). -/
theorem lerp_eq_plusZeroes_of_end {cd ca : Rgba} {value : U32} (hcd : FiniteColour cd) (hca : FiniteColour ca)
    (hvalue : value = 0 ∨ value = 255) (k : Nat) :
    lerp .exact cd ca value k = plusZeroes (if value = 0 then cd else ca) := by
  obtain ⟨hdead, halive⟩ := densityEndpointsAreExact cd ca k hcd hca
  rcases hvalue with rfl | rfl
  · exact hdead
  · exact halive

/-- Settles O42: both operations fetch the one texel, which is an end of the density range. -/
theorem binaryAndDensityAgreeAtTheEnds : Obligations.BinaryAndDensityAgreeAtTheEnds := by
  intro s reserved u v ca cd t hready hw hh hca hcd hends
  obtain ⟨-, -, hfetch⟩ := fetchScalar_eq Config.num u v s.drawCount hw hh
  refine ⟨_, exec_pixBinary_of_fetch hready hfetch reserved, ?_⟩
  rw [exec_pixDensity_of_fetch hready hfetch reserved, Config.num, lerp_eq_plusZeroes_of_end hcd hca (hends _ _)]
  rfl

end Sys2Proof.Machine

/-!
PROOFS. The refusals (R99 to R104): the select register and the colours are looked at before the texture, the texture before its
texel, and nothing else is refused.
-/

namespace Sys2Proof.Machine

/-! ## A request under a legal mode -/

theorem exists_decode_eq_ok {cfg0 : U32} (h : cfg0.toNat % 4 ≠ 3) (req : Req) : ∃ i, decode cfg0 req = .ok i := by
  cases hdec : decode cfg0 req with
  | ok i => exact ⟨i, rfl⟩
  | error e => exact absurd (modeField_eq_iff.mp (decode_eq_error_iff.mp hdec)) h

/-- Modes 1 and 2 select an operation that fetches its texel by `fetchScalar`, and fails where that fetch does. -/
theorem exists_decode_scalar {cfg0 : U32} (h : cfg0.toNat % 4 = 1 ∨ cfg0.toNat % 4 = 2) (req : Req) :
    ∃ i, decode cfg0 req = .ok i ∧ ∀ {inp : Inputs} {k : Nat} {r : Refusal},
      fetchScalar Config.num (reqU req) (reqV req) inp.tex k = .error r → respondTo i inp k = .error r := by
  rcases h with hcode | hcode
  · refine ⟨_, decode_eq_ok_iff.mpr (.inr (.inl ⟨modeField_eq_iff.mpr hcode, rfl⟩)), fun hfetch => ?_⟩
    exact congrArg (Except.map _) hfetch
  · refine ⟨_, decode_eq_ok_iff.mpr (.inr (.inr ⟨modeField_eq_iff.mpr hcode, rfl⟩)), fun hfetch => ?_⟩
    exact congrArg (Except.map _) hfetch

section Request

variable {s : State} {req : Req} {rest : List Input} {cfg0 : U32}
  (hin : s.inputs = .request req :: rest) (hmode : s.cfg.get 0 = some cfg0)

include hin hmode

theorem step_of_decode {i : Instr} (hdec : decode cfg0 req = .ok i) : step s = exec i (s.withInputs rest) :=
  step_of_fetch_ok hin (fetch_ok.mpr ⟨cfg0, hmode, hdec⟩)

theorem step_of_answer_error {i : Instr} {r : Refusal} (hdec : decode cfg0 req = .ok i) (hanswer : answer i s = .error r) :
    step s = .refused r := by
  rw [step_of_decode hin hmode hdec, exec_eq_deliver]
  exact deliver_eq_refused_iff.mpr hanswer

/-- Whichever operation is selected reads its inputs first (R104). -/
theorem step_of_readInputs_error {r : Refusal} (hlegal : cfg0.toNat % 4 ≠ 3) (hread : readInputs s = .error r) :
    step s = .refused r := by
  obtain ⟨i, hdec⟩ := exists_decode_eq_ok hlegal req
  exact step_of_answer_error hin hmode hdec (congrArg (Except.bind · _) hread)

end Request

/-! ## Refusals by the order of the reads (R101, R102) -/

/-- Two colours take all eight registers after the select register (R19). -/
theorem get_of_colours {c : CfgRegs} {ca cd : Rgba} (hca : c.ca = some ca) (hcd : c.cd = some cd) {n : Fin 9} (hn : n ≠ 0) :
    ∃ v, c.get n = some v := by
  obtain ⟨h1, h2, h3, h4⟩ := (coloursAreTheirRegisters c ca).1.mp hca
  obtain ⟨h5, h6, h7, h8⟩ := (coloursAreTheirRegisters c cd).2.mp hcd
  fin_cases n
  exacts [absurd rfl hn, ⟨_, h1⟩, ⟨_, h2⟩, ⟨_, h3⟩, ⟨_, h4⟩, ⟨_, h5⟩, ⟨_, h6⟩, ⟨_, h7⟩, ⟨_, h8⟩]

/-- A colour register never written leaves its colour without a value (R98). -/
theorem colour_eq_none_of_get {c : CfgRegs} {n : Fin 9} (hn : n ≠ 0) (h : c.get n = none) : c.ca = none ∨ c.cd = none := by
  cases hca : c.ca with
  | none => exact .inl rfl
  | some ca => cases hcd : c.cd with
    | none => exact .inr rfl
    | some cd =>
      obtain ⟨v, hv⟩ := get_of_colours hca hcd hn
      cases h.symm.trans hv

/-- Settles O43: the fetch refuses for `CFG[0]`, and the reading of the inputs for a colour register, before the texture. -/
theorem refusalsBeforeAnyTextureAccess : Obligations.RefusalsBeforeAnyTextureAccess := by
  intro s req rest hin
  refine ⟨fun hnone => ?_, fun cfg0 hmode => ?_, fun cfg0 n hmode hlegal hnone => ?_⟩
  · exact step_of_fetch_error hin (fetch_error.mpr (.inl ⟨hnone, rfl⟩))
  · exact (reservedCodeIsRefused s req rest cfg0 hin hmode).mpr
  · have hn : n ≠ 0 := by rintro rfl; cases hnone.symm.trans hmode
    exact step_of_readInputs_error hin hmode hlegal (readInputs_error.mpr (.inl ⟨colour_eq_none_of_get hn hnone, rfl⟩))

/-- Settles O44: each refusal is that of the first read which fails; under mode 0 the step is PIX.PACKED's. -/
theorem refusalsOfTheTexture : Obligations.RefusalsOfTheTexture := by
  intro s req rest cfg0 ca cd hin hmode hca hcd
  refine ⟨fun htex hlegal => ?_, fun t htex hscalar hzero => ?_, fun t htex hpacked => ?_⟩
  · have hread : readInputs s = .error .noTexture := readInputs_error.mpr (.inr (by simp [hca, hcd, htex]))
    exact step_of_readInputs_error hin hmode hlegal hread
  · obtain ⟨i, hdec, hrespond⟩ := exists_decode_scalar hscalar req
    refine step_of_answer_error hin hmode hdec ?_
    rw [answer_of_ready ⟨hca, hcd, htex⟩]
    exact hrespond (fetchScalar_zero _ _ _ _ hzero)
  · obtain ⟨x, y, hcolumn, hrow, -, -, hexec⟩ :=
      packedAnswersTheCellsColour (s.withInputs rest) (reservedField cfg0) (reqU req) (reqV req) ca cd t ⟨hca, hcd, htex⟩
    have hstep := (step_of_decode hin hmode (decode_eq_ok_iff.mpr (.inl ⟨modeField_eq_iff.mpr hpacked, rfl⟩))).trans hexec
    refine ⟨x, y, hcolumn, hrow, fun hwant => ?_, fun hwidth hheight => ?_⟩
    · rw [hstep, if_neg]
      rintro ⟨hwidth, hheight⟩
      rcases hwant with hnarrow | hzero
      · omega
      · simp [hzero] at hheight
    · rw [hstep, if_pos ⟨hwidth, by bv_omega⟩]
      rfl

/-! ## The closed list of reasons -/

theorem error_of_bind_error {ε α β : Type} {f : α → Except ε β} {x : Except ε α} {e : ε} (h : x.bind f = .error e) :
    x = .error e ∨ ∃ a, x = .ok a ∧ f a = .error e := by
  cases x with
  | error e' => exact .inl (congrArg Except.error (Except.error.inj h))
  | ok a => exact .inr ⟨a, rfl, h⟩

/-- The fetch of a texel fails for a zero dimension, or for want of the texel. -/
theorem respondTo_error {i : Instr} {inp : Inputs} {k : Nat} {r : Refusal} (h : respondTo i inp k = .error r) :
    r = .zeroDimension ∨ r = .texelOutOfBounds := by
  cases i with
  | pixPacked _ u v => exact .inr (fetchPacked_error (error_of_map_error h))
  | pixDensity _ u v => exact .inl (fetchScalar_error (error_of_map_error h))
  | pixBinary _ u v => exact .inl (fetchScalar_error (error_of_map_error h))

/-- A refused request fails at the fetch of its operation, at the reading of the inputs, or at the fetch of the texel. -/
theorem answerRequest_error {req : Req} {s : State} {r : Refusal} (h : answerRequest req s = .error r) :
    r = .configUnwritten ∨ r = .reservedMode ∨ r = .noTexture ∨ r = .zeroDimension ∨ r = .texelOutOfBounds := by
  rcases error_of_bind_error h with hfetch | ⟨i, -, hanswer⟩
  · rcases fetch_error.mp hfetch with ⟨-, hr⟩ | ⟨-, -, -, hr⟩
    · exact .inl hr
    · exact .inr (.inl hr)
  · rcases error_of_bind_error hanswer with hread | ⟨inp, -, hrespond⟩
    · rcases readInputs_error.mp hread with ⟨-, hr⟩ | ⟨-, -, -, hr⟩
      · exact .inl hr
      · exact .inr (.inr (.inl hr))
    · exact .inr (.inr (.inr (respondTo_error hrespond)))

/-- A step that is refused is a request's, and its answer is that refusal. -/
theorem step_refused_cases {s : State} {r : Refusal} (h : step s = .refused r) :
    ∃ req rest, s.inputs = .request req :: rest ∧ answerRequest req s = .error r := by
  cases hin : s.inputs with
  | nil => simp [step, hin] at h
  | cons head rest => cases head with
    | host m => cases (step_of_host hin).symm.trans h
    | request req => exact ⟨req, rest, rfl, deliver_eq_refused_iff.mp ((step_eq_deliver hin).symm.trans h)⟩

/-- Settles O46: the answer to the request is the refusal. -/
theorem onlyRequestsAreRefusedAndOnlyForTheFiveReasons : Obligations.OnlyRequestsAreRefusedAndOnlyForTheFiveReasons := by
  intro s r hstep
  obtain ⟨req, rest, hin, hanswer⟩ := step_refused_cases hstep
  exact ⟨⟨req, rest, hin⟩, answerRequest_error hanswer⟩

end Sys2Proof.Machine

/-!
PROOFS. The host's contract (R115, R116, R123): with the nine registers written and a texture of the mode's shape attached, a
request is answered.
-/

namespace Sys2Proof.Machine

/-- The nine registers written give both colours (R19, R115). -/
theorem exists_colours_of_written {c : CfgRegs} (h : ∀ n, c.get n ≠ none) :
    ∃ ca cd, c.ca = some ca ∧ c.cd = some cd := by
  choose v hv using fun n => Option.ne_none_iff_exists'.mp (h n)
  exact ⟨⟨v 1, v 2, v 3, v 4⟩, ⟨v 5, v 6, v 7, v 8⟩,
    (coloursAreTheirRegisters c _).1.mpr ⟨hv 1, hv 2, hv 3, hv 4⟩,
    (coloursAreTheirRegisters c _).2.mpr ⟨hv 5, hv 6, hv 7, hv 8⟩⟩

/-- Settles O47: the step delivers the answer that every request inside the contract has. -/
theorem invocationsInsideTheContractComplete : Obligations.InvocationsInsideTheContractComplete := by
  intro s req rest cfg0 t hin hmode hwritten htex hshape
  obtain ⟨ca, cd, hca, hcd⟩ := exists_colours_of_written hwritten
  obtain ⟨c, hanswer⟩ := answerRequest_of_contract hmode ⟨hca, hcd, htex⟩ hshape req
  refine ⟨c, ?_⟩
  rw [step_eq_deliver hin, hanswer]
  rfl

end Sys2Proof.Machine
